-- ==== Sys2Proof/Word.lean ====
section
/-!
DEFINITION. The two word types of the PH6502 core (00_scope.md R5, R6): a byte, which is also a memory cell and a
data register, and a word, which is also an address and the program counter.
-/

namespace Sys2Proof

/-- A byte: an 8-bit value, bit 7 the most significant (00_scope.md R6). -/
abbrev Byte := BitVec 8

/-- A word or address: a 16-bit value, bit 15 the most significant (00_scope.md R6). -/
abbrev Word := BitVec 16

/-- Text of an assembler line, of a debug command or of the decoder's rendering, as its characters. -/
abbrev Text := List Char

end Sys2Proof
end

