-- ==== Sys2Proof/Syntax.lean ====
section
/-!
DEFINITION. The instructions of the PH6502 core: the 28 mnemonics and six addressing modes of the opcode ROM
(30_encoding.md R61, R66), and the type of decoded instructions, one constructor per row of opcode_table.json.
-/

namespace Sys2Proof

/-- The 28 mnemonics, in the order of the opcode ROM (30_encoding.md R66). -/
inductive Mnemonic where
  | adc | sbc | and | eor | ora
  | asl | lsr | rol | ror
  | cmp
  | lda | ldx | sta | stx
  | inx | dex | tax | txa
  | clc | sec
  | bcc | bcs | beq | bne | bmi | bpl | jmp | brk
  deriving DecidableEq, Repr

/-- The six addressing modes, a closed enumeration (30_encoding.md R61). -/
inductive Mode where
  | imp   -- Implied
  | acc   -- Accumulator
  | imm   -- Immediate
  | rel   -- Relative
  | abs   -- Absolute
  | absX  -- Absolute-Indexed-by-X
  deriving DecidableEq, Repr

/-- A (mnemonic, addressing mode) pair, what one row of the opcode ROM stands for (30_encoding.md R66). -/
structure Form where
  mnemonic : Mnemonic
  mode     : Mode
  deriving DecidableEq, Repr

/-- A decoded instruction: one constructor per row of the opcode ROM (30_encoding.md R66), with the operand its bytes
carry: an immediate byte (R63), a 16-bit absolute address (R64) or the raw displacement byte of a branch (R65). -/
inductive Instr where
  | adcImm (v : Byte) | adcAbs (addr : Word) | adcAbsX (addr : Word)
  | sbcImm (v : Byte) | sbcAbs (addr : Word) | sbcAbsX (addr : Word)
  | andImm (v : Byte) | andAbs (addr : Word) | andAbsX (addr : Word)
  | eorImm (v : Byte) | eorAbs (addr : Word) | eorAbsX (addr : Word)
  | oraImm (v : Byte) | oraAbs (addr : Word) | oraAbsX (addr : Word)
  | asl | lsr | rol | ror
  | cmpImm (v : Byte) | cmpAbs (addr : Word) | cmpAbsX (addr : Word)
  | ldaImm (v : Byte) | ldaAbs (addr : Word) | ldaAbsX (addr : Word)
  | ldxImm (v : Byte) | ldxAbs (addr : Word)
  | staAbs (addr : Word) | staAbsX (addr : Word)
  | stxAbs (addr : Word)
  | inx | dex | tax | txa
  | clc | sec
  | bcc (disp : Byte) | bcs (disp : Byte) | beq (disp : Byte)
  | bne (disp : Byte) | bmi (disp : Byte) | bpl (disp : Byte)
  | jmp (addr : Word)
  | brk
  deriving DecidableEq, Repr

/-- The row of the opcode ROM an instruction belongs to (30_encoding.md R66). -/
def Instr.form : Instr → Form
  | .adcImm _ => ⟨.adc, .imm⟩ | .adcAbs _ => ⟨.adc, .abs⟩ | .adcAbsX _ => ⟨.adc, .absX⟩
  | .sbcImm _ => ⟨.sbc, .imm⟩ | .sbcAbs _ => ⟨.sbc, .abs⟩ | .sbcAbsX _ => ⟨.sbc, .absX⟩
  | .andImm _ => ⟨.and, .imm⟩ | .andAbs _ => ⟨.and, .abs⟩ | .andAbsX _ => ⟨.and, .absX⟩
  | .eorImm _ => ⟨.eor, .imm⟩ | .eorAbs _ => ⟨.eor, .abs⟩ | .eorAbsX _ => ⟨.eor, .absX⟩
  | .oraImm _ => ⟨.ora, .imm⟩ | .oraAbs _ => ⟨.ora, .abs⟩ | .oraAbsX _ => ⟨.ora, .absX⟩
  | .asl => ⟨.asl, .acc⟩ | .lsr => ⟨.lsr, .acc⟩ | .rol => ⟨.rol, .acc⟩ | .ror => ⟨.ror, .acc⟩
  | .cmpImm _ => ⟨.cmp, .imm⟩ | .cmpAbs _ => ⟨.cmp, .abs⟩ | .cmpAbsX _ => ⟨.cmp, .absX⟩
  | .ldaImm _ => ⟨.lda, .imm⟩ | .ldaAbs _ => ⟨.lda, .abs⟩ | .ldaAbsX _ => ⟨.lda, .absX⟩
  | .ldxImm _ => ⟨.ldx, .imm⟩ | .ldxAbs _ => ⟨.ldx, .abs⟩
  | .staAbs _ => ⟨.sta, .abs⟩ | .staAbsX _ => ⟨.sta, .absX⟩
  | .stxAbs _ => ⟨.stx, .abs⟩
  | .inx => ⟨.inx, .imp⟩ | .dex => ⟨.dex, .imp⟩ | .tax => ⟨.tax, .imp⟩ | .txa => ⟨.txa, .imp⟩
  | .clc => ⟨.clc, .imp⟩ | .sec => ⟨.sec, .imp⟩
  | .bcc _ => ⟨.bcc, .rel⟩ | .bcs _ => ⟨.bcs, .rel⟩ | .beq _ => ⟨.beq, .rel⟩
  | .bne _ => ⟨.bne, .rel⟩ | .bmi _ => ⟨.bmi, .rel⟩ | .bpl _ => ⟨.bpl, .rel⟩
  | .jmp _ => ⟨.jmp, .abs⟩
  | .brk => ⟨.brk, .imp⟩

/-- The mnemonic of an instruction. -/
def Instr.mnemonic (i : Instr) : Mnemonic := i.form.mnemonic

/-- The addressing mode of an instruction. -/
def Instr.mode (i : Instr) : Mode := i.form.mode

/-- The operand of an instruction as the 16-bit value its operand bytes spell: a one-byte operand in bits 7..0 with
bits 15..8 zero, no operand as zero (30_encoding.md R62, R74 `operand[7:0]`, `operand[15:8]`). -/
def Instr.operand : Instr → Word
  | .adcImm v | .sbcImm v | .andImm v | .eorImm v | .oraImm v | .cmpImm v | .ldaImm v | .ldxImm v => v.setWidth 16
  | .bcc d | .bcs d | .beq d | .bne d | .bmi d | .bpl d => d.setWidth 16
  | .adcAbs a | .sbcAbs a | .andAbs a | .eorAbs a | .oraAbs a | .cmpAbs a | .ldaAbs a | .ldxAbs a => a
  | .adcAbsX a | .sbcAbsX a | .andAbsX a | .eorAbsX a | .oraAbsX a | .cmpAbsX a | .ldaAbsX a => a
  | .staAbs a | .staAbsX a | .stxAbs a | .jmp a => a
  | .asl | .lsr | .rol | .ror | .inx | .dex | .tax | .txa | .clc | .sec | .brk => 0

end Sys2Proof
end

