-- ==== Sys2Proof/Config.lean ====
section
/-!
DEFINITION. The parameters of the model (00_scope.md R5): the fixed sizes and addresses, and the record of the
parameters the spec leaves open, with the default values that State.reset takes.
-/

namespace Sys2Proof

/-- The resolved configuration option `mode` (00_scope.md R5, 60_exceptions.md R232). -/
inductive RunMode where
  | run
  | debug
  deriving DecidableEq, Repr

/-- The open parameters of one machine (00_scope.md R5): the reset values D4 leaves open, the implemented subset of the
opcode ROM, and the host's choice of mode. -/
structure Config where
  initA : Byte
  initX : Byte
  initY : Byte
  initS : Byte
  initP : Byte
  /-- The rows that this implementation lacks: `Implemented` is the opcode ROM less these (30_encoding.md R67). -/
  omitted : List Form
  mode : RunMode
  deriving DecidableEq, Repr

/-- The parameter values of State.reset. `omitted` empty is the spec's default (92 D3); the five zero registers and the
run mode are DESIGN CHOICE (logs 1, 3, 11). -/
def Config.default : Config :=
  { initA := 0, initX := 0, initY := 0, initS := 0, initP := 0, omitted := [], mode := .run }

/-- `LoadBase`: the address of the first loaded byte and the first PC (00_scope.md R5, 10_state.md R35). -/
def Config.loadBase : Word := 0x8000

/-- `MemSize`: the number of memory cells (00_scope.md R5, 20_memory.md R40). -/
def Config.memSize : Nat := 65536

/-- `Placeholder`: the text of an unknown opcode in the decoder (00_scope.md R5, 92 D15; log 21). -/
def Config.placeholder : Text := ['?', '?', '?']

end Sys2Proof
end

