-- ==== Sys2Proof/WellFormed.lean ====
section
/-!
DEFINITION. Which instructions an implementation has. The operands of Instr are typed by their widths, so the one
check left is the parameter `Implemented` of the opcode ROM (30_encoding.md R67).
-/

namespace Sys2Proof

/-- An instruction is well formed for an implementation that lacks the rows `omitted` when its own row is not one of
them: "a row outside `Implemented` is treated exactly like an absent row" (30_encoding.md R67). -/
def Instr.wellFormed (omitted : List Form) (i : Instr) : Bool := !omitted.contains i.form

end Sys2Proof
end

