-- ==== Sys2Proof/Decode.lean ====
section
/-!
DEFINITION. The opcode ROM as data (30_encoding.md R66), the decoder from bytes to instructions and the encoder from
instructions to bytes, both read from that one table (R68).
-/

namespace Sys2Proof

/-- One row of the opcode ROM: a (mnemonic, mode) pair and its opcode byte (30_encoding.md R66). -/
structure RomRow where
  form   : Form
  opcode : Byte
  deriving DecidableEq, Repr

/-- The rows of ADC, SBC, AND, EOR and ORA (30_encoding.md R66; the values are the spec's D1, log 2). -/
def romArithmetic : List RomRow := [
  ⟨⟨.adc, .imm⟩, 0x69⟩, ⟨⟨.adc, .abs⟩, 0x6D⟩, ⟨⟨.adc, .absX⟩, 0x7D⟩,
  ⟨⟨.sbc, .imm⟩, 0xE9⟩, ⟨⟨.sbc, .abs⟩, 0xED⟩, ⟨⟨.sbc, .absX⟩, 0xFD⟩,
  ⟨⟨.and, .imm⟩, 0x29⟩, ⟨⟨.and, .abs⟩, 0x2D⟩, ⟨⟨.and, .absX⟩, 0x3D⟩,
  ⟨⟨.eor, .imm⟩, 0x49⟩, ⟨⟨.eor, .abs⟩, 0x4D⟩, ⟨⟨.eor, .absX⟩, 0x5D⟩,
  ⟨⟨.ora, .imm⟩, 0x09⟩, ⟨⟨.ora, .abs⟩, 0x0D⟩, ⟨⟨.ora, .absX⟩, 0x1D⟩]

/-- The rows of the shifts, of CMP and of the loads and stores (30_encoding.md R66; 0xA9 and 0x8D are the source's own). -/
def romData : List RomRow := [
  ⟨⟨.asl, .acc⟩, 0x0A⟩, ⟨⟨.lsr, .acc⟩, 0x4A⟩, ⟨⟨.rol, .acc⟩, 0x2A⟩, ⟨⟨.ror, .acc⟩, 0x6A⟩,
  ⟨⟨.cmp, .imm⟩, 0xC9⟩, ⟨⟨.cmp, .abs⟩, 0xCD⟩, ⟨⟨.cmp, .absX⟩, 0xDD⟩,
  ⟨⟨.lda, .imm⟩, 0xA9⟩, ⟨⟨.lda, .abs⟩, 0xAD⟩, ⟨⟨.lda, .absX⟩, 0xBD⟩,
  ⟨⟨.ldx, .imm⟩, 0xA2⟩, ⟨⟨.ldx, .abs⟩, 0xAE⟩,
  ⟨⟨.sta, .abs⟩, 0x8D⟩, ⟨⟨.sta, .absX⟩, 0x9D⟩,
  ⟨⟨.stx, .abs⟩, 0x8E⟩]

/-- The rows of the register, flag and control-transfer instructions (30_encoding.md R66; 0x00 is the source's own). -/
def romControl : List RomRow := [
  ⟨⟨.inx, .imp⟩, 0xE8⟩, ⟨⟨.dex, .imp⟩, 0xCA⟩, ⟨⟨.tax, .imp⟩, 0xAA⟩, ⟨⟨.txa, .imp⟩, 0x8A⟩,
  ⟨⟨.clc, .imp⟩, 0x18⟩, ⟨⟨.sec, .imp⟩, 0x38⟩,
  ⟨⟨.bcc, .rel⟩, 0x90⟩, ⟨⟨.bcs, .rel⟩, 0xB0⟩, ⟨⟨.beq, .rel⟩, 0xF0⟩,
  ⟨⟨.bne, .rel⟩, 0xD0⟩, ⟨⟨.bmi, .rel⟩, 0x30⟩, ⟨⟨.bpl, .rel⟩, 0x10⟩,
  ⟨⟨.jmp, .abs⟩, 0x4C⟩,
  ⟨⟨.brk, .imp⟩, 0x00⟩]

/-- The opcode ROM: 44 rows, in the order of the spec (30_encoding.md R66). -/
def opcodeRom : List RomRow := romArithmetic ++ romData ++ romControl

/-- The number of operand bytes of a mode: "0 for Accumulator/Implied, 1 for Immediate/Relative, 2 for
Absolute/Absolute-Indexed" (30_encoding.md R61). -/
def Mode.operandBytes : Mode → Nat
  | .imp | .acc => 0
  | .imm | .rel => 1
  | .abs | .absX => 2

/-- The row of `Implemented` whose opcode is `b`, by lookup of the whole byte; a row the implementation lacks is "treated
exactly like an absent row" (30_encoding.md R67, R69). -/
def romRow? (omitted : List Form) (b : Byte) : Option RomRow :=
  (opcodeRom.find? fun r => r.opcode == b).filter fun r => !omitted.contains r.form

/-- The opcode of a (mnemonic, mode) pair of the ROM, the table's other direction (30_encoding.md R68). -/
def opcodeOf? (f : Form) : Option Byte :=
  (opcodeRom.find? fun r => r.form == f).map (·.opcode)

/-- The instruction of a mnemonic that takes Immediate, Absolute and Absolute-Indexed-by-X. -/
def readForm (imm : Byte → Instr) (abs absX : Word → Instr) (m : Mode) (operand : Word) : Option Instr :=
  match m with
  | .imm => some (imm (operand.setWidth 8))
  | .abs => some (abs operand)
  | .absX => some (absX operand)
  | _ => none

/-- The instruction of a mnemonic that takes the one mode `only`. -/
def oneForm (only : Mode) (i : Instr) (m : Mode) : Option Instr :=
  if m = only then some i else none

/-- The instruction a (mnemonic, mode) pair and its operand bytes stand for; none for a pair that no row of the ROM has
(30_encoding.md R62 to R66). -/
def instrOf? (f : Form) (operand : Word) : Option Instr :=
  match f.mnemonic with
  | .adc => readForm .adcImm .adcAbs .adcAbsX f.mode operand
  | .sbc => readForm .sbcImm .sbcAbs .sbcAbsX f.mode operand
  | .and => readForm .andImm .andAbs .andAbsX f.mode operand
  | .eor => readForm .eorImm .eorAbs .eorAbsX f.mode operand
  | .ora => readForm .oraImm .oraAbs .oraAbsX f.mode operand
  | .cmp => readForm .cmpImm .cmpAbs .cmpAbsX f.mode operand
  | .lda => readForm .ldaImm .ldaAbs .ldaAbsX f.mode operand
  | .asl => oneForm .acc .asl f.mode
  | .lsr => oneForm .acc .lsr f.mode
  | .rol => oneForm .acc .rol f.mode
  | .ror => oneForm .acc .ror f.mode
  | .ldx =>
    match f.mode with
    | .imm => some (.ldxImm (operand.setWidth 8))
    | .abs => some (.ldxAbs operand)
    | _ => none
  | .sta =>
    match f.mode with
    | .abs => some (.staAbs operand)
    | .absX => some (.staAbsX operand)
    | _ => none
  | .stx => oneForm .abs (.stxAbs operand) f.mode
  | .inx => oneForm .imp .inx f.mode
  | .dex => oneForm .imp .dex f.mode
  | .tax => oneForm .imp .tax f.mode
  | .txa => oneForm .imp .txa f.mode
  | .clc => oneForm .imp .clc f.mode
  | .sec => oneForm .imp .sec f.mode
  | .bcc => oneForm .rel (.bcc (operand.setWidth 8)) f.mode
  | .bcs => oneForm .rel (.bcs (operand.setWidth 8)) f.mode
  | .beq => oneForm .rel (.beq (operand.setWidth 8)) f.mode
  | .bne => oneForm .rel (.bne (operand.setWidth 8)) f.mode
  | .bmi => oneForm .rel (.bmi (operand.setWidth 8)) f.mode
  | .bpl => oneForm .rel (.bpl (operand.setWidth 8)) f.mode
  | .jmp => oneForm .abs (.jmp operand) f.mode
  | .brk => oneForm .imp .brk f.mode

/-- The 16-bit value of a low byte and a high byte, `lo | (hi << 8)` (00_scope.md R7, 30_encoding.md R64). -/
def wordOf (lo hi : Byte) : Word := lo.setWidth 16 ||| (hi.setWidth 16 <<< 8)

/-- Bits 7..0 of a word. -/
def lowByte (w : Word) : Byte := w.setWidth 8

/-- Bits 15..8 of a word. -/
def highByte (w : Word) : Byte := (w >>> 8).setWidth 8

/-- Why a byte sequence is no instruction. -/
inductive DecodeError where
  /-- The first byte is the opcode of no row of `Implemented` (30_encoding.md R70). -/
  | unknownOpcode (b : Byte)
  /-- The sequence ends before the instruction does. It cannot arise in the machine, whose memory has no end. -/
  | truncated
  deriving DecidableEq, Repr

/-- Takes the operand of a mode off the front of a byte sequence, low byte first (30_encoding.md R62, R45 of
20_memory.md). -/
def takeOperand : Mode → List Byte → Option (Word × List Byte)
  | .imp, rest | .acc, rest => some (0, rest)
  | .imm, b :: rest | .rel, b :: rest => some (b.setWidth 16, rest)
  | .abs, lo :: hi :: rest | .absX, lo :: hi :: rest => some (wordOf lo hi, rest)
  | _, _ => none

/-- The decoder: the instruction at the front of a byte sequence and the bytes after it, for an implementation that lacks
the rows `omitted`; total, and rejecting by name (30_encoding.md R60 to R71). -/
def decode (omitted : List Form) : List Byte → Except DecodeError (Instr × List Byte)
  | [] => .error .truncated
  | b :: rest =>
    match romRow? omitted b with
    | none => .error (.unknownOpcode b)
    | some row =>
      match takeOperand row.form.mode rest with
      | none => .error .truncated
      | some (operand, rest') =>
        match instrOf? row.form operand with
        | none => .error (.unknownOpcode b)
        | some i => .ok (i, rest')

/-- The operand bytes of a mode, "0/1/2 operand bytes (little-endian for 2-byte forms)" (30_encoding.md R74). -/
def operandBytesOf (m : Mode) (operand : Word) : List Byte :=
  match m with
  | .imp | .acc => []
  | .imm | .rel => [lowByte operand]
  | .abs | .absX => [lowByte operand, highByte operand]

/-- The bytes of a (mnemonic, mode) pair with an operand, by lookup in the ROM; none for a pair the ROM has not
(30_encoding.md R74). -/
def encodeForm? (f : Form) (operand : Word) : Option (List Byte) :=
  (opcodeOf? f).map fun op => op :: operandBytesOf f.mode operand

/-- The encoder: the bytes of an instruction (30_encoding.md R62, R74). Every instruction's pair is in the ROM, so the
empty answer never occurs (Laws/Encoding.lean, encode_eq). -/
def encode (i : Instr) : List Byte := (encodeForm? i.form i.operand).getD []

/-- The three bytes, first byte lowest, of an instruction word whose bits are numbered as opcode_table.json numbers
them, the bits from `nbits` up zero. -/
def tableBytes (nbits w : Nat) : List Byte :=
  let v := w % 2 ^ nbits
  [BitVec.ofNat 8 v, BitVec.ofNat 8 (v / 256), BitVec.ofNat 8 (v / 65536)]

/-- The instruction the decoder reads from an instruction word of opcode_table.json, with every row implemented. -/
def decodeTableWord (nbits w : Nat) : Option Instr :=
  match decode [] (tableBytes nbits w) with
  | .ok (i, _) => some i
  | .error _ => none

end Sys2Proof
end

