-- ==== Sys2Proof/Machine/State.lean ====
section
/-!
DEFINITION. The state of the machine (10_state.md R20, R33; 60_exceptions.md R232), the reasons a step can stop, and the
state after construction (10_state.md R35, 70_reset_and_hazards.md R260).
-/

namespace Sys2Proof.Machine

/-- Memory as the list of the cells that do not hold 0x00, addresses strictly rising (Memory.wf in Machine/Ops.lean); an
address not listed reads 0x00, since memory is "zero-initialized at boot" (20_memory.md R40, R50). -/
abbrev Memory := List Host.Cell

/-- Why the core halted (10_state.md R33, 60_exceptions.md R220). -/
inductive HaltReason where
  | brk
  | unknownOpcode (b : Byte)
  deriving DecidableEq, Repr

/-- The run status `Run` (10_state.md R33). -/
inductive RunStatus where
  | running
  | halted (reason : HaltReason)
  deriving DecidableEq, Repr

/-- The states of the debug controller (60_exceptions.md R232). -/
inductive ControllerState where
  | continuousRun
  | singleStep (remaining : Nat)
  | pausedInteractive
  | terminalInspection
  | terminated
  deriving DecidableEq, Repr

/-- What the host gets back for a command line (60_exceptions.md R242): the rendered view, whose look is out of scope
(00_scope.md R4), or the named error of R227 with the command that raised it, which stands for the error and the view
redisplayed with it. Which reply a command leaves where no rule says it is a DESIGN CHOICE (log 25). -/
inductive Reply where
  | view
  | invalidCommandArgument (command : Text)
  deriving DecidableEq, Repr

/-- The debug controller (60_exceptions.md R232, R235) and its port to the host (R242): `commands` are the lines sent
and not yet read, oldest first, and `reply` is the answer to the last line read (log 12). -/
structure Debugger where
  mode        : RunMode
  debugFlag   : Bool
  controller  : ControllerState
  memCursor   : Word
  instrCursor : Word
  commands    : List Text
  reply       : Option Reply
  deriving DecidableEq, Repr

/-- The machine: the architectural tuple (A, X, Y, PC, S, P, Mem, Run) of 10_state.md R20, the rows the opcode ROM lacks
(a parameter, 30_encoding.md R67, that no step writes), and the debug controller (60_exceptions.md R232). -/
structure State where
  a       : Byte
  x       : Byte
  y       : Byte
  pc      : Word
  s       : Byte
  p       : Byte
  mem     : Memory
  run     : RunStatus
  omitted : List Form
  dbg     : Debugger
  deriving DecidableEq, Repr

/-- The faults of a step. There are none: "No memory access can fault or stall" (20_memory.md R41) and "No other
instruction can halt, fault or trap" (60_exceptions.md R220); the two halts are next states (log 22). -/
inductive Fault where
  deriving DecidableEq, Repr

/-- The refusals of a step. -/
inductive Refusal where
  /-- An instruction whose meaning is not written yet; raised by an arm of Machine/Dispatch.lean only, and by none of
  them now. Safe: the model stops where the hardware goes on. -/
  | notModelled (mnemonic : String)
  deriving DecidableEq, Repr

/-- What a meaning and a step answer. -/
abbrev Result := Host.Outcome State Fault Refusal

/-- The debug controller after construction: ContinuousRun "with the debug flag equal to `mode = debug`" (10_state.md
R35); both view cursors at 0 (DESIGN CHOICE, log 13), no command waiting. -/
def Debugger.construct (mode : RunMode) : Debugger :=
  { mode := mode, debugFlag := decide (mode = .debug), controller := .continuousRun,
    memCursor := 0, instrCursor := 0, commands := [], reply := none }

/-- Construction of the core from its parameters (10_state.md R35, 70_reset_and_hazards.md R260). -/
def State.construct (c : Config) : State :=
  { a := c.initA, x := c.initX, y := c.initY, pc := Config.loadBase, s := c.initS, p := c.initP,
    mem := [], run := .running, omitted := c.omitted, dbg := Debugger.construct c.mode }

/-- The machine right after reset, with the default parameters (Config.default; logs 1, 3, 11). -/
def State.reset : State := State.construct Config.default

end Sys2Proof.Machine
end

