-- ==== Sys2Proof/Machine/Ops.lean ====
section
/-!
DEFINITION. The named operations over memory, registers and the run status: the three memory primitives (20_memory.md R42
to R44), one setter per register (10_state.md R32; Y and S have one although no executor uses it, R23, R25), the move past an
instruction (40_pipeline.md R111) and the halt (60_exceptions.md R220, R224).
-/

namespace Sys2Proof.Machine

/-- The canonical form of a memory: addresses strictly rising and inside the 65536 cells (20_memory.md R40), and no cell
listed that holds the 0x00 an unlisted address reads as. -/
abbrev Memory.wf (m : Memory) : Prop :=
  m.Pairwise (fun c d => c.1 < d.1) ∧ ∀ c ∈ m, c.1 < Config.memSize ∧ c.2 ≠ 0

/-- The byte listed for an address, 0x00 for an address not listed (20_memory.md R50). -/
def Memory.lookup (m : Memory) (k : Nat) : Byte :=
  match m with
  | [] => 0
  | (k', v) :: rest => if k' = k then v else Memory.lookup rest k

/-- A cell put in front of the first one at a higher address. -/
def Memory.insert (m : Memory) (c : Host.Cell) : Memory :=
  match m with
  | [] => [c]
  | d :: rest => if c.1 < d.1 then c :: d :: rest else d :: Memory.insert rest c

/-- The cells at every other address than `k`. -/
def Memory.drop (m : Memory) (k : Nat) : Memory := m.filter fun c => c.1 != k

/-- `read8(addr)`, `MemRead(addr, 1)`: the byte at an address, with no effect on any state (20_memory.md R42). A Word is
an address already taken modulo 65536 (R41). -/
def Memory.read8 (m : Memory) (addr : Word) : Byte := Memory.lookup m addr.toNat

/-- `write8(addr, byte)`, `MemWrite(addr, 1, v)`: sets one cell and changes no other (20_memory.md R43). Writing 0x00
unlists the address, which keeps the canonical form. -/
def Memory.write8 (m : Memory) (addr : Word) (v : Byte) : Memory :=
  if v = 0 then Memory.drop m addr.toNat else Memory.insert (Memory.drop m addr.toNat) (addr.toNat, v)

/-- `read16LE(addr)`, `MemRead16(addr)`: "low byte at addr, high byte at addr+1", the second address modulo 65536
(20_memory.md R44). -/
def Memory.read16 (m : Memory) (addr : Word) : Word :=
  wordOf (Memory.read8 m addr) (Memory.read8 m (addr + 1))

/-- Bytes written one after another from an address upward, each address modulo 65536 (30_encoding.md R74, R76, R85). -/
def Memory.writeBytes (m : Memory) (addr : Word) : List Byte → Memory
  | [] => m
  | b :: rest => Memory.writeBytes (Memory.write8 m addr b) (addr + 1) rest

/-- `n` bytes read one after another from an address upward, each address modulo 65536 (30_encoding.md R60, R62). -/
def Memory.readBytes (m : Memory) (addr : Word) : Nat → List Byte
  | 0 => []
  | n + 1 => Memory.read8 m addr :: Memory.readBytes m (addr + 1) n

/-- `A <- v` (00_scope.md R8, 10_state.md R32). -/
def State.setA (s : State) (v : Byte) : State := { s with a := v }

/-- `X <- v` (00_scope.md R8, 10_state.md R32). -/
def State.setX (s : State) (v : Byte) : State := { s with x := v }

/-- `Y <- v` (10_state.md R32). The register file exposes the write; no executor uses it (R23). -/
def State.setY (s : State) (v : Byte) : State := { s with y := v }

/-- `S <- v` (10_state.md R32). The register file exposes the write; "no executor uses that interface for S" (R25). -/
def State.setS (s : State) (v : Byte) : State := { s with s := v }

/-- `P <- v`, the status register as a byte; the flag setters of Machine/Flags.lean go through it. -/
def State.setP (s : State) (v : Byte) : State := { s with p := v }

/-- `PC <- t` (00_scope.md R8). -/
def State.setPc (s : State) (t : Word) : State := { s with pc := t }

/-- `Run <- r` (10_state.md R33). -/
def State.setRun (s : State) (r : RunStatus) : State := { s with run := r }

/-- A new memory. -/
def State.setMem (s : State) (m : Memory) : State := { s with mem := m }

/-- A new state of the debug controller, every part of the CPU as it was (60_exceptions.md R232). -/
def State.setDbg (s : State) (d : Debugger) : State := { s with dbg := d }

/-- `MemRead(addr, 1)` in a state (20_memory.md R42). -/
def State.read8 (s : State) (addr : Word) : Byte := Memory.read8 s.mem addr

/-- `MemWrite(addr, 1, v)` in a state (20_memory.md R43). -/
def State.write8 (s : State) (addr : Word) (v : Byte) : State := s.setMem (Memory.write8 s.mem addr v)

/-- The address after an instruction of a mode: `(pc0 + 1 + len) mod 65536` (40_pipeline.md R111). -/
def State.nextPc (s : State) (m : Mode) : Word := s.pc + 1 + BitVec.ofNat 16 m.operandBytes

/-- The PC update of every instruction that is not a control transfer (40_pipeline.md R111). -/
def State.advance (s : State) (m : Mode) : State := s.setPc (s.nextPc m)

/-- Whether `Run = Halted(_)`. -/
def State.isHalted (s : State) : Bool :=
  match s.run with
  | .running => false
  | .halted _ => true

/-- The entry of a halt, this core's one exception: it "saves nothing and changes nothing but `Run`" (60_exceptions.md
R224), so PC keeps the address of the halting opcode (92 D5, log 4). There is no return from it (R225). -/
def State.halt (s : State) (reason : HaltReason) : State := s.setRun (.halted reason)

end Sys2Proof.Machine
end

