-- ==== Sys2Proof/Machine/Assembler.lean ====
section
/-!
DEFINITION. The assembler-side encoder, from a source line to bytes in memory (30_encoding.md R72 to R77), and the
decoder, from bytes in memory to a line of text (R78 to R83). Both read the opcode ROM of Decode.lean (R67, R68).
-/

namespace Sys2Proof.Machine

/-- A blank of a source line or a command line: a space or a tab (DESIGN CHOICE, logs 14, 15). -/
def isBlank (c : Char) : Bool := c == ' ' || c == '\t'

/-- A line without its leading and trailing blanks (30_encoding.md R72). -/
def trimBlanks (t : Text) : Text := ((t.dropWhile isBlank).reverse.dropWhile isBlank).reverse

/-- The first word of a line, and what stands after it and its blanks; both empty for a blank line (30_encoding.md R72). -/
def splitLine (line : Text) : Text × Text :=
  let t := trimBlanks line
  (t.takeWhile (fun c => !isBlank c), (t.dropWhile (fun c => !isBlank c)).dropWhile isBlank)

/-- The sixteen hexadecimal digits in their canonical upper case (30_encoding.md R72, R80). -/
def hexDigits : Text :=
  ['0', '1', '2', '3', '4', '5', '6', '7', '8', '9', 'A', 'B', 'C', 'D', 'E', 'F']

/-- The digit for a value below 16. -/
def hexChar (d : Nat) : Char := hexDigits.getD d '0'

/-- The value of a hexadecimal digit in either case (30_encoding.md R72). -/
def hexVal? (c : Char) : Option Nat := hexDigits.idxOf? c.toUpper

/-- A byte as two digits (30_encoding.md R79). -/
def byteText (b : Byte) : Text := [hexChar (b.toNat / 16), hexChar (b.toNat % 16)]

/-- A word as four digits, "high byte first in the text" (30_encoding.md R79). -/
def wordText (w : Word) : Text := byteText (highByte w) ++ byteText (lowByte w)

/-- The byte two digits spell (30_encoding.md R73). -/
def hexByte? (h l : Char) : Option Byte :=
  match hexVal? h, hexVal? l with
  | some x, some y => some (BitVec.ofNat 8 (16 * x + y))
  | _, _ => none

/-- The 16-bit value four digits spell (30_encoding.md R73). -/
def hexWord? (a b c d : Char) : Option Word :=
  match hexByte? a b, hexByte? c d with
  | some hi, some lo => some (wordOf lo hi)
  | _, _ => none

/-- The text of a mnemonic in its canonical lower case (30_encoding.md R72). -/
def mnemonicText : Mnemonic → Text
  | .adc => ['a', 'd', 'c'] | .sbc => ['s', 'b', 'c'] | .and => ['a', 'n', 'd']
  | .eor => ['e', 'o', 'r'] | .ora => ['o', 'r', 'a'] | .asl => ['a', 's', 'l']
  | .lsr => ['l', 's', 'r'] | .rol => ['r', 'o', 'l'] | .ror => ['r', 'o', 'r']
  | .cmp => ['c', 'm', 'p'] | .lda => ['l', 'd', 'a'] | .ldx => ['l', 'd', 'x']
  | .sta => ['s', 't', 'a'] | .stx => ['s', 't', 'x'] | .inx => ['i', 'n', 'x']
  | .dex => ['d', 'e', 'x'] | .tax => ['t', 'a', 'x'] | .txa => ['t', 'x', 'a']
  | .clc => ['c', 'l', 'c'] | .sec => ['s', 'e', 'c'] | .bcc => ['b', 'c', 'c']
  | .bcs => ['b', 'c', 's'] | .beq => ['b', 'e', 'q'] | .bne => ['b', 'n', 'e']
  | .bmi => ['b', 'm', 'i'] | .bpl => ['b', 'p', 'l'] | .jmp => ['j', 'm', 'p']
  | .brk => ['b', 'r', 'k']

/-- Every mnemonic, in the order of the opcode ROM (30_encoding.md R66). -/
def mnemonics : List Mnemonic :=
  [.adc, .sbc, .and, .eor, .ora, .asl, .lsr, .rol, .ror, .cmp, .lda, .ldx, .sta, .stx, .inx, .dex, .tax, .txa, .clc, .sec,
    .bcc, .bcs, .beq, .bne, .bmi, .bpl, .jmp, .brk]

/-- The mnemonic a word spells, in either case (30_encoding.md R72). -/
def mnemonicOf? (t : Text) : Option Mnemonic :=
  mnemonics.find? fun m => mnemonicText m == t.map Char.toLower

/-- The addressing mode and operand an operand token selects; no token is Implied (30_encoding.md R73). -/
def parseOperand : Text → Option (Mode × Word)
  | [] => some (.imp, 0)
  | ['A'] => some (.acc, 0)
  | ['#', '$', h, l] => (hexByte? h l).map fun b => (.imm, b.setWidth 16)
  | ['$', h, l] => (hexByte? h l).map fun b => (.rel, b.setWidth 16)
  | ['$', a, b, c, d] => (hexWord? a b c d).map fun w => (.abs, w)
  | ['$', a, b, c, d, ',', 'X'] => (hexWord? a b c d).map fun w => (.absX, w)
  | _ => none

/-- The (mnemonic, mode) pair and operand of a source line; none where it matches no grammar (30_encoding.md R72, R73). -/
def parseLine (line : Text) : Option (Form × Word) :=
  match mnemonicOf? (splitLine line).1, parseOperand (splitLine line).2 with
  | some mn, some (mode, operand) => some (⟨mn, mode⟩, operand)
  | _, _ => none

/-- The named error of the encoder, which "carries the offending source line" (30_encoding.md R75, 60_exceptions.md
R226). -/
inductive AssemblerError where
  | malformedOperand (line : Text)
  deriving DecidableEq, Repr

/-- The encoder on one source line: the memory with the line's bytes at the cursor, and the advanced cursor; on an error
no memory at all, so nothing is written (30_encoding.md R74 to R76; 92 D17, log 21). -/
def assembleLine (omitted : List Form) (m : Memory) (cursor : Word) (line : Text) :
    Except AssemblerError (Memory × Word) :=
  match parseLine line with
  | none => .error (.malformedOperand line)
  | some (f, operand) =>
    if omitted.contains f then .error (.malformedOperand line)
    else
      match encodeForm? f operand with
      | none => .error (.malformedOperand line)
      | some bytes =>
        .ok (Memory.writeBytes m cursor bytes, cursor + 1 + BitVec.ofNat 16 f.mode.operandBytes)

/-- The operand text of a mode (30_encoding.md R79). -/
def operandText (m : Mode) (operand : Word) : Text :=
  match m with
  | .imp => []
  | .acc => ['A']
  | .imm => ['#', '$'] ++ byteText (lowByte operand)
  | .rel => '$' :: byteText (lowByte operand)
  | .abs => '$' :: wordText operand
  | .absX => '$' :: wordText operand ++ [',', 'X']

/-- The rendered text: the mnemonic, then "if the mode has an operand, one space and the operand" (30_encoding.md R80). -/
def lineText (f : Form) (operand : Word) : Text :=
  match operandText f.mode operand with
  | [] => mnemonicText f.mnemonic
  | t => mnemonicText f.mnemonic ++ ' ' :: t

/-- The operand at an address in memory: no byte, one byte or two, as the mode has (30_encoding.md R62, R78). -/
def operandAt (m : Memory) (addr : Word) (mode : Mode) : Word :=
  match mode.operandBytes with
  | 0 => 0
  | 1 => (Memory.read8 m addr).setWidth 16
  | _ => Memory.read16 m addr

/-- The decoder at a memory index: the text and the index of the next instruction. An unknown opcode renders as the
placeholder and advances by one byte (30_encoding.md R78 to R83). -/
def disassemble (omitted : List Form) (m : Memory) (index : Word) : Text × Word :=
  match romRow? omitted (Memory.read8 m index) with
  | none => (Config.placeholder, index + 1)
  | some row =>
    (lineText row.form (operandAt m (index + 1) row.form.mode),
      index + 1 + BitVec.ofNat 16 row.form.mode.operandBytes)

end Sys2Proof.Machine
end

