-- ==== Sys2Proof/Machine/Debugger.lean ====
section
/-!
DEFINITION. The commands of the debug controller: their text, and what each does to the controller's own state
(60_exceptions.md R227, R234 to R240). No command touches the CPU: the controller "changes CPU state only by running
dispatcher steps" (R232), which Machine/Cycle.lean does.
-/

namespace Sys2Proof.Machine

/-- A command line as the controller reads it (60_exceptions.md R234 to R239). -/
inductive Command where
  | step (n : Nat)
  | memoryView (addr : Word)
  | instructionView (addr : Word)
  | endPausing
  | exit
  /-- A command of the vocabulary with a missing or malformed numeric argument (R227). -/
  | invalidArgument
  /-- Anything else (R239). -/
  | unrecognized
  deriving DecidableEq, Repr

/-- The number that digits of a base spell after `acc`. Digits only: a sign, a `$` and a `0x` are no digits, so `step -1` and
`step +3` have no number (DESIGN CHOICE, log 24). -/
def digits? (base : Nat) : Text → Nat → Option Nat
  | [], acc => some acc
  | c :: rest, acc =>
    match hexVal? c with
    | none => none
    | some d => if d < base then digits? base rest (acc * base + d) else none

/-- The number a text of one or more digits spells. -/
def number? (base : Nat) (t : Text) : Option Nat :=
  if t = [] then none else digits? base t 0

/-- A command line read: the words match exactly, the count of `step` is decimal and 1 when absent, the address of `m`
and `i` is hexadecimal and taken modulo 65536 (60_exceptions.md R234, R235, R239; 92 D18, D31; logs 14, 19). -/
def parseCommand (line : Text) : Command :=
  let word := (splitLine line).1
  let arg := (splitLine line).2
  if word = ['s', 't', 'e', 'p'] then
    if arg = [] then .step 1
    else
      match number? 10 arg with
      | some n => .step n
      | none => .invalidArgument
  else if word = ['m'] then
    match number? 16 arg with
    | some n => .memoryView (BitVec.ofNat 16 n)
    | none => .invalidArgument
  else if word = ['i'] then
    match number? 16 arg with
    | some n => .instructionView (BitVec.ofNat 16 n)
    | none => .invalidArgument
  else if word = ['e', 'n', 'd'] && arg = [] then .endPausing
  else if word = ['e', 'x', 'i', 't'] && arg = [] then .exit
  else .unrecognized

/-- A command in PausedInteractive (60_exceptions.md R234 to R237, R227, R239). The replies that no
rule gives (the view after `m` and `i`, none after `step`, `end` and `exit`) are a DESIGN CHOICE (log 25). -/
def Debugger.pausedCommand (d : Debugger) (line : Text) : Debugger :=
  match parseCommand line with
  | .step n => { d with controller := .singleStep n, reply := none }
  | .memoryView addr => { d with memCursor := addr, reply := some .view }
  | .instructionView addr => { d with instrCursor := addr, reply := some .view }
  | .endPausing => { d with controller := .continuousRun, debugFlag := false, reply := none }
  | .exit => { d with controller := .terminated, reply := none }
  | .invalidArgument => { d with reply := some (.invalidCommandArgument line) }
  | .unrecognized => { d with reply := some .view }

/-- A command in TerminalInspection, which accepts "only `m`, `i`, `exit`"; a line that starts with `step`, or `end`, is
unrecognized there (60_exceptions.md R238; 92 D30, log 19). The replies are those of pausedCommand (DESIGN CHOICE, log 25). -/
def Debugger.inspectionCommand (d : Debugger) (line : Text) : Debugger :=
  if (splitLine line).1 = ['s', 't', 'e', 'p'] then { d with reply := some .view }
  else
    match parseCommand line with
    | .memoryView addr => { d with memCursor := addr, reply := some .view }
    | .instructionView addr => { d with instrCursor := addr, reply := some .view }
    | .exit => { d with controller := .terminated, reply := none }
    | .invalidArgument => { d with reply := some (.invalidCommandArgument line) }
    | .step _ | .endPausing | .unrecognized => { d with reply := some .view }

/-- The controller reads the oldest command line; with none waiting it is "blocked awaiting the next operator command"
and nothing changes (60_exceptions.md R241; logs 9, 12). -/
def Debugger.readCommand (d : Debugger) (obey : Debugger → Text → Debugger) : Debugger :=
  match d.commands with
  | [] => d
  | line :: rest => obey { d with commands := rest } line

end Sys2Proof.Machine
end

