-- ==== Sys2Proof/Machine/Flags.lean ====
section
/-!
DEFINITION. The status register P and every flag computation of the ALU (10_state.md R26 to R32, 40_pipeline.md R113,
R114, and the flag lines of files 41 to 44).
-/

namespace Sys2Proof.Machine

/-- The named bits of P (10_state.md R26). Interrupt and Decimal have a position and no reader or writer (R31; their
positions are the spec's D24, log 17). -/
inductive Flag where
  | negative | overflow | decimal | interrupt | zero | carry
  deriving DecidableEq, Repr

/-- The bit of P that a flag is (10_state.md R26). -/
def Flag.bit : Flag → Nat
  | .negative => 7
  | .overflow => 6
  | .decimal => 3
  | .interrupt => 2
  | .zero => 1
  | .carry => 0

/-- A byte with one bit set or cleared and every other bit as it was: "setting a flag changes only its bit of P"
(10_state.md R32). -/
def withBit (p : Byte) (k : Nat) (b : Bool) : Byte :=
  if b then p ||| BitVec.twoPow 8 k else p &&& ~~~(BitVec.twoPow 8 k)

/-- `P.<flag>` read (00_scope.md R8). -/
def State.flag (s : State) (f : Flag) : Bool := s.p.getLsbD f.bit

/-- `P.<flag> <- b` (00_scope.md R8, 10_state.md R32). -/
def State.setFlag (s : State) (f : Flag) (b : Bool) : State := s.setP (withBit s.p f.bit b)

/-- `negativeOf(byte)`: "bit 7 set" (10_state.md R32). -/
def negativeOf (r : Byte) : Bool := r.getLsbD 7

/-- `isZero(byte)` (10_state.md R32). -/
def isZero (r : Byte) : Bool := r == 0

/-- `setNZ(r)`: `P.N <- r[7]; P.Z <- (r = 0)` (40_pipeline.md R113). -/
def State.setNZ (s : State) (r : Byte) : State :=
  (s.setFlag .negative (negativeOf r)).setFlag .zero (isZero r)

/-- `A <- r; setNZ(r)`, the source's `deriveFromAccumulator` (40_pipeline.md R113). -/
def State.setANZ (s : State) (r : Byte) : State := (s.setA r).setNZ r

/-- `X <- r; setNZ(r)`, the source's `deriveFromIndexX` (40_pipeline.md R113). -/
def State.setXNZ (s : State) (r : Byte) : State := (s.setX r).setNZ r

/-- `A + v + Cin` as an integer 0..511 (41_arithmetic.md R130). -/
def adcSum (a v : Byte) (cin : Bool) : Nat := a.toNat + v.toNat + cin.toNat

/-- ADC's result `sum mod 256` (41_arithmetic.md R130). -/
def adcResult (a v : Byte) (cin : Bool) : Byte := BitVec.ofNat 8 (adcSum a v cin)

/-- ADC's Carry: "1 iff unsigned sum > 255" (41_arithmetic.md R130). -/
def adcCarry (a v : Byte) (cin : Bool) : Bool := decide (adcSum a v cin > 255)

/-- ADC's Overflow: "1 iff sign(A)==sign(v) and sign(A')≠sign(A)" (41_arithmetic.md R130). -/
def adcOverflow (a v r : Byte) : Bool := negativeOf a == negativeOf v && negativeOf r != negativeOf a

/-- SBC's effective operand `v - (Cin - 1)`, an integer in 0..256 that is not reduced (41_arithmetic.md R131, 92 D7;
log 6). -/
def sbcEffective (v : Byte) (cin : Bool) : Int := (v.toNat : Int) - ((cin.toNat : Int) - 1)

/-- SBC's result `(A - eff) mod 256` (41_arithmetic.md R131). -/
def sbcResult (a v : Byte) (cin : Bool) : Byte := BitVec.ofInt 8 ((a.toNat : Int) - sbcEffective v cin)

/-- SBC's Carry: "1 iff A ≥ effective operand (no borrow)", an integer comparison (41_arithmetic.md R131). -/
def sbcCarry (a v : Byte) (cin : Bool) : Bool := decide ((a.toNat : Int) ≥ sbcEffective v cin)

/-- SBC's Overflow: "1 iff sign(A)≠sign(v) and sign(A')≠sign(A)" (41_arithmetic.md R131). -/
def sbcOverflow (a v r : Byte) : Bool := negativeOf a != negativeOf v && negativeOf r != negativeOf a

/-- CMP's `r = (A − v) mod 256` (44_compare.md R160). -/
def cmpResult (a v : Byte) : Byte := a - v

/-- CMP's Carry: "1 iff A ≥ v", unsigned (44_compare.md R160). -/
def cmpCarry (a v : Byte) : Bool := decide (a.toNat ≥ v.toNat)

/-- CMP's Zero: "Zero iff A==v" (44_compare.md R160). -/
def cmpZero (a v : Byte) : Bool := a == v

end Sys2Proof.Machine
end

