-- ==== Sys2Proof/Machine/Operands.lean ====
section
/-!
DEFINITION. The addressing-mode resolver (40_pipeline.md R104 to R110): for each mode, the operand value, the effective
address or the branch target, from the operand bytes the decoder has read and from X and memory. It writes nothing.
-/

namespace Sys2Proof.Machine

/-- Accumulator mode: the operand is the register A itself (40_pipeline.md R105). -/
def State.accOperand (s : State) : Byte := s.a

/-- Immediate mode: the operand value is the operand byte, with no extension (40_pipeline.md R106, 30_encoding.md R63). -/
def immOperand (v : Byte) : Byte := v

/-- Absolute mode: the effective address is the operand (40_pipeline.md R107). -/
def absAddress (base : Word) : Word := base

/-- Absolute-Indexed-by-X mode: `ea = (base + X) mod 65536`, X an unsigned byte (40_pipeline.md R108). -/
def State.absXAddress (s : State) (base : Word) : Word := base + s.x.setWidth 16

/-- The operand value of an instruction that reads in Absolute mode (40_pipeline.md R110). -/
def State.absOperand (s : State) (base : Word) : Byte := s.read8 (absAddress base)

/-- The operand value of an instruction that reads in Absolute-Indexed-by-X mode (40_pipeline.md R110). -/
def State.absXOperand (s : State) (base : Word) : Byte := s.read8 (s.absXAddress base)

/-- Relative mode: the displacement `sext_16(byte1)` (40_pipeline.md R109, 30_encoding.md R65). -/
def displacement (d : Byte) : Word := d.signExtend 16

/-- The target of a taken branch: the address of the byte after the operand plus the displacement, modulo 65536
(48_control.md R200, 30_encoding.md R65). -/
def State.branchTarget (s : State) (d : Byte) : Word := s.nextPc .rel + displacement d

end Sys2Proof.Machine
end

