-- ==== Sys2Proof/Machine/Arithmetic.lean ====
section
/-!
DEFINITION. ADC and SBC in their three modes (41_arithmetic.md R130, R131).
-/

namespace Sys2Proof.Machine

/-- ADC's effect for an operand value: A, C, V, N, Z (41_arithmetic.md R130); always binary (40_pipeline.md R115). -/
def State.adc (s : State) (v : Byte) : State :=
  let cin := s.flag .carry
  let r := adcResult s.a v cin
  ((s.setFlag .carry (adcCarry s.a v cin)).setFlag .overflow (adcOverflow s.a v r)).setANZ r

/-- SBC's effect for an operand value: A, C, V, N, Z (41_arithmetic.md R131); always binary (40_pipeline.md R115). -/
def State.sbc (s : State) (v : Byte) : State :=
  let cin := s.flag .carry
  let r := sbcResult s.a v cin
  ((s.setFlag .carry (sbcCarry s.a v cin)).setFlag .overflow (sbcOverflow s.a v r)).setANZ r

/-- ADC #$HH (R130). -/
def execAdcImm (v : Byte) (s : State) : Result := .next ((s.adc (immOperand v)).advance .imm)

/-- ADC $HHHH (R130). -/
def execAdcAbs (addr : Word) (s : State) : Result := .next ((s.adc (s.absOperand addr)).advance .abs)

/-- ADC $HHHH,X (R130). -/
def execAdcAbsX (addr : Word) (s : State) : Result := .next ((s.adc (s.absXOperand addr)).advance .absX)

/-- SBC #$HH (R131). -/
def execSbcImm (v : Byte) (s : State) : Result := .next ((s.sbc (immOperand v)).advance .imm)

/-- SBC $HHHH (R131). -/
def execSbcAbs (addr : Word) (s : State) : Result := .next ((s.sbc (s.absOperand addr)).advance .abs)

/-- SBC $HHHH,X (R131). -/
def execSbcAbsX (addr : Word) (s : State) : Result := .next ((s.sbc (s.absXOperand addr)).advance .absX)

end Sys2Proof.Machine
end

