-- ==== Sys2Proof/Machine/Compare.lean ====
section
/-!
DEFINITION. CMP in its three modes (44_compare.md R160).
-/

namespace Sys2Proof.Machine

/-- CMP's effect for an operand value: C, Z, N and nothing else (44_compare.md R160). -/
def State.cmp (s : State) (v : Byte) : State :=
  ((s.setFlag .carry (cmpCarry s.a v)).setFlag .zero (cmpZero s.a v)).setFlag .negative (negativeOf (cmpResult s.a v))

/-- CMP #$HH (R160). -/
def execCmpImm (v : Byte) (s : State) : Result := .next ((s.cmp (immOperand v)).advance .imm)

/-- CMP $HHHH (R160). -/
def execCmpAbs (addr : Word) (s : State) : Result := .next ((s.cmp (s.absOperand addr)).advance .abs)

/-- CMP $HHHH,X (R160). -/
def execCmpAbsX (addr : Word) (s : State) : Result := .next ((s.cmp (s.absXOperand addr)).advance .absX)

end Sys2Proof.Machine
end

