-- ==== Sys2Proof/Machine/Control.lean ====
section
/-!
DEFINITION. The six branches, JMP and BRK (48_control.md R200 to R208). They set PC themselves and get no other PC update
(40_pipeline.md R112).
-/

namespace Sys2Proof.Machine

/-- The common branch rule: the target when the condition holds, else the address after the operand (48_control.md
R200). -/
def State.branch (s : State) (cond : Bool) (d : Byte) : State :=
  s.setPc (if cond then s.branchTarget d else s.nextPc .rel)

/-- BCC: `P.C = 0` (R201). -/
def execBcc (d : Byte) (s : State) : Result := .next (s.branch (!s.flag .carry) d)

/-- BCS: `P.C = 1` (R202, 92 D8; log 7). -/
def execBcs (d : Byte) (s : State) : Result := .next (s.branch (s.flag .carry) d)

/-- BEQ: `P.Z = 1` (R203, 92 D8; log 7). -/
def execBeq (d : Byte) (s : State) : Result := .next (s.branch (s.flag .zero) d)

/-- BNE: `P.Z = 0` (R204, 92 D8; log 7). -/
def execBne (d : Byte) (s : State) : Result := .next (s.branch (!s.flag .zero) d)

/-- BMI: `P.N = 1` (R205, 92 D8; log 7). -/
def execBmi (d : Byte) (s : State) : Result := .next (s.branch (s.flag .negative) d)

/-- BPL: `P.N = 0` (R206, 92 D8; log 7). -/
def execBpl (d : Byte) (s : State) : Result := .next (s.branch (!s.flag .negative) d)

/-- JMP: `PC <- ea`; no data byte is read (R207). -/
def execJmp (addr : Word) (s : State) : Result := .next (s.setPc (absAddress addr))

/-- BRK: `Run <- Halted(Brk)`; no register, flag or memory cell changes and PC keeps `pc0` (R208; 92 D5, D6, logs 4, 5). -/
def execBrk (s : State) : Result := .next (s.halt .brk)

end Sys2Proof.Machine
end

