-- ==== Sys2Proof/Machine/LoadStore.lean ====
section
/-!
DEFINITION. LDA, LDX, STA and STX (45_load_store.md R170 to R173).
-/

namespace Sys2Proof.Machine

/-- LDA #$HH: `A <- v; setNZ(v)` (R170). -/
def execLdaImm (v : Byte) (s : State) : Result := .next ((s.setANZ (immOperand v)).advance .imm)

/-- LDA $HHHH (R170). -/
def execLdaAbs (addr : Word) (s : State) : Result := .next ((s.setANZ (s.absOperand addr)).advance .abs)

/-- LDA $HHHH,X (R170). -/
def execLdaAbsX (addr : Word) (s : State) : Result := .next ((s.setANZ (s.absXOperand addr)).advance .absX)

/-- LDX #$HH: `X <- v; setNZ(v)` (R171). -/
def execLdxImm (v : Byte) (s : State) : Result := .next ((s.setXNZ (immOperand v)).advance .imm)

/-- LDX $HHHH (R171). -/
def execLdxAbs (addr : Word) (s : State) : Result := .next ((s.setXNZ (s.absOperand addr)).advance .abs)

/-- STA $HHHH: `MemWrite(ea, 1, A)` (R172). -/
def execStaAbs (addr : Word) (s : State) : Result := .next ((s.write8 (absAddress addr) s.a).advance .abs)

/-- STA $HHHH,X (R172). -/
def execStaAbsX (addr : Word) (s : State) : Result := .next ((s.write8 (s.absXAddress addr) s.a).advance .absX)

/-- STX $HHHH: `MemWrite(ea, 1, X)` (R173). -/
def execStxAbs (addr : Word) (s : State) : Result := .next ((s.write8 (absAddress addr) s.x).advance .abs)

end Sys2Proof.Machine
end

