-- ==== Sys2Proof/Machine/Logical.lean ====
section
/-!
DEFINITION. AND, EOR and ORA in their three modes (42_logical.md R140 to R142).
-/

namespace Sys2Proof.Machine

/-- `r <- A & v; A <- r; setNZ(r)` (42_logical.md R140). -/
def State.and (s : State) (v : Byte) : State := s.setANZ (s.a &&& v)

/-- `r <- A ^ v; A <- r; setNZ(r)` (42_logical.md R141). -/
def State.eor (s : State) (v : Byte) : State := s.setANZ (s.a ^^^ v)

/-- `r <- A | v; A <- r; setNZ(r)` (42_logical.md R142). -/
def State.ora (s : State) (v : Byte) : State := s.setANZ (s.a ||| v)

/-- AND #$HH (R140). -/
def execAndImm (v : Byte) (s : State) : Result := .next ((s.and (immOperand v)).advance .imm)

/-- AND $HHHH (R140). -/
def execAndAbs (addr : Word) (s : State) : Result := .next ((s.and (s.absOperand addr)).advance .abs)

/-- AND $HHHH,X (R140). -/
def execAndAbsX (addr : Word) (s : State) : Result := .next ((s.and (s.absXOperand addr)).advance .absX)

/-- EOR #$HH (R141). -/
def execEorImm (v : Byte) (s : State) : Result := .next ((s.eor (immOperand v)).advance .imm)

/-- EOR $HHHH (R141). -/
def execEorAbs (addr : Word) (s : State) : Result := .next ((s.eor (s.absOperand addr)).advance .abs)

/-- EOR $HHHH,X (R141). -/
def execEorAbsX (addr : Word) (s : State) : Result := .next ((s.eor (s.absXOperand addr)).advance .absX)

/-- ORA #$HH (R142). -/
def execOraImm (v : Byte) (s : State) : Result := .next ((s.ora (immOperand v)).advance .imm)

/-- ORA $HHHH (R142). -/
def execOraAbs (addr : Word) (s : State) : Result := .next ((s.ora (s.absOperand addr)).advance .abs)

/-- ORA $HHHH,X (R142). -/
def execOraAbsX (addr : Word) (s : State) : Result := .next ((s.ora (s.absXOperand addr)).advance .absX)

end Sys2Proof.Machine
end

