-- ==== Sys2Proof/Machine/Register.lean ====
section
/-!
DEFINITION. INX, DEX, TAX and TXA (46_register.md R180 to R183), CLC and SEC (47_flag.md R190, R191).
-/

namespace Sys2Proof.Machine

/-- INX: `r <- (X + 1) mod 256; X <- r; setNZ(r)` (R180). -/
def execInx (s : State) : Result := .next ((s.setXNZ (s.x + 1)).advance .imp)

/-- DEX: `r <- (X - 1) mod 256; X <- r; setNZ(r)` (R181). -/
def execDex (s : State) : Result := .next ((s.setXNZ (s.x - 1)).advance .imp)

/-- TAX: `X <- A; setNZ(A)` (R182). -/
def execTax (s : State) : Result := .next ((s.setXNZ s.a).advance .imp)

/-- TXA: `A <- X; setNZ(X)` (R183). -/
def execTxa (s : State) : Result := .next ((s.setANZ s.x).advance .imp)

/-- CLC: `P.C <- 0` (R190). -/
def execClc (s : State) : Result := .next ((s.setFlag .carry false).advance .imp)

/-- SEC: `P.C <- 1` (R191). -/
def execSec (s : State) : Result := .next ((s.setFlag .carry true).advance .imp)

end Sys2Proof.Machine
end

