-- ==== Sys2Proof/Machine/Shift.lean ====
section
/-!
DEFINITION. ASL, LSR, ROL and ROR, which shift A by one bit (43_shift.md R150 to R153).
-/

namespace Sys2Proof.Machine

/-- The end of every shift and rotate: `P.C <- c; A <- r; setNZ(r)` (43_shift.md R150 to R153). -/
def State.shifted (s : State) (c : Bool) (r : Byte) : State := (s.setFlag .carry c).setANZ r

/-- A Carry bit as a byte, 0 or 1. -/
def carryByte (c : Bool) : Byte := (BitVec.ofBool c).setWidth 8

/-- `c <- A[7]; r <- (A << 1) & 0xFF` (R150). -/
def State.asl (s : State) : State := s.shifted (s.accOperand.getLsbD 7) (s.accOperand <<< 1)

/-- `c <- A[0]; r <- A >> 1` (R151). -/
def State.lsr (s : State) : State := s.shifted (s.accOperand.getLsbD 0) (s.accOperand >>> 1)

/-- `c <- A[7]; r <- ((A << 1) | Cin) & 0xFF` (R152). -/
def State.rol (s : State) : State :=
  s.shifted (s.accOperand.getLsbD 7) ((s.accOperand <<< 1) ||| carryByte (s.flag .carry))

/-- `c <- A[0]; r <- (A >> 1) | (Cin << 7)` (R153). -/
def State.ror (s : State) : State :=
  s.shifted (s.accOperand.getLsbD 0) ((s.accOperand >>> 1) ||| (carryByte (s.flag .carry) <<< 7))

/-- ASL A (R150). -/
def execAsl (s : State) : Result := .next (s.asl.advance .acc)

/-- LSR A (R151). -/
def execLsr (s : State) : Result := .next (s.lsr.advance .acc)

/-- ROL A (R152). -/
def execRol (s : State) : Result := .next (s.rol.advance .acc)

/-- ROR A (R153). -/
def execRor (s : State) : Result := .next (s.ror.advance .acc)

end Sys2Proof.Machine
end

