-- ==== Sys2Proof/Machine/Dispatch.lean ====
section
/-!
DEFINITION. The dispatcher's table from an operation to its executor (40_pipeline.md R102): one arm per row of the
opcode ROM, each one call of that row's meaning.
-/

namespace Sys2Proof.Machine

/-- The executor of an instruction, applied to a state (40_pipeline.md R100, R102). -/
def exec (i : Instr) (s : State) : Host.Outcome State Fault Refusal :=
  match i with
  | .adcImm v => Sys2Proof.Machine.execAdcImm v s
  | .adcAbs addr => Sys2Proof.Machine.execAdcAbs addr s
  | .adcAbsX addr => Sys2Proof.Machine.execAdcAbsX addr s
  | .sbcImm v => Sys2Proof.Machine.execSbcImm v s
  | .sbcAbs addr => Sys2Proof.Machine.execSbcAbs addr s
  | .sbcAbsX addr => Sys2Proof.Machine.execSbcAbsX addr s
  | .andImm v => Sys2Proof.Machine.execAndImm v s
  | .andAbs addr => Sys2Proof.Machine.execAndAbs addr s
  | .andAbsX addr => Sys2Proof.Machine.execAndAbsX addr s
  | .eorImm v => Sys2Proof.Machine.execEorImm v s
  | .eorAbs addr => Sys2Proof.Machine.execEorAbs addr s
  | .eorAbsX addr => Sys2Proof.Machine.execEorAbsX addr s
  | .oraImm v => Sys2Proof.Machine.execOraImm v s
  | .oraAbs addr => Sys2Proof.Machine.execOraAbs addr s
  | .oraAbsX addr => Sys2Proof.Machine.execOraAbsX addr s
  | .asl => Sys2Proof.Machine.execAsl s
  | .lsr => Sys2Proof.Machine.execLsr s
  | .rol => Sys2Proof.Machine.execRol s
  | .ror => Sys2Proof.Machine.execRor s
  | .cmpImm v => Sys2Proof.Machine.execCmpImm v s
  | .cmpAbs addr => Sys2Proof.Machine.execCmpAbs addr s
  | .cmpAbsX addr => Sys2Proof.Machine.execCmpAbsX addr s
  | .ldaImm v => Sys2Proof.Machine.execLdaImm v s
  | .ldaAbs addr => Sys2Proof.Machine.execLdaAbs addr s
  | .ldaAbsX addr => Sys2Proof.Machine.execLdaAbsX addr s
  | .ldxImm v => Sys2Proof.Machine.execLdxImm v s
  | .ldxAbs addr => Sys2Proof.Machine.execLdxAbs addr s
  | .staAbs addr => Sys2Proof.Machine.execStaAbs addr s
  | .staAbsX addr => Sys2Proof.Machine.execStaAbsX addr s
  | .stxAbs addr => Sys2Proof.Machine.execStxAbs addr s
  | .inx => Sys2Proof.Machine.execInx s
  | .dex => Sys2Proof.Machine.execDex s
  | .tax => Sys2Proof.Machine.execTax s
  | .txa => Sys2Proof.Machine.execTxa s
  | .clc => Sys2Proof.Machine.execClc s
  | .sec => Sys2Proof.Machine.execSec s
  | .bcc disp => Sys2Proof.Machine.execBcc disp s
  | .bcs disp => Sys2Proof.Machine.execBcs disp s
  | .beq disp => Sys2Proof.Machine.execBeq disp s
  | .bne disp => Sys2Proof.Machine.execBne disp s
  | .bmi disp => Sys2Proof.Machine.execBmi disp s
  | .bpl disp => Sys2Proof.Machine.execBpl disp s
  | .jmp addr => Sys2Proof.Machine.execJmp addr s
  | .brk => Sys2Proof.Machine.execBrk s

end Sys2Proof.Machine
end

