-- ==== Sys2Proof/Machine/Cycle.lean ====
section
/-!
DEFINITION. One dispatcher step: fetch, decode, execute, halt (40_pipeline.md R100 to R103, R118), and one transition of
the debug controller that wraps it (60_exceptions.md R232 to R240).
-/

namespace Sys2Proof.Machine

/-- Fetch and decode: the opcode byte at PC, then only the operand bytes its mode needs, all from the current memory
(40_pipeline.md R101, R102; 20_memory.md R54). -/
def State.fetch (s : State) : Except DecodeError Instr :=
  match romRow? s.omitted (s.read8 s.pc) with
  | none => .error (.unknownOpcode (s.read8 s.pc))
  | some row =>
    match decode s.omitted (Memory.readBytes s.mem s.pc (1 + row.form.mode.operandBytes)) with
    | .ok (i, _) => .ok i
    | .error e => .error e

/-- One dispatcher step (40_pipeline.md R100): the fetched instruction runs; an opcode outside `Implemented` halts the
core with no other change (R103); a halted core does not change (R118, log 9). -/
def State.dispatch (s : State) : Result :=
  match s.run with
  | .halted _ => .next s
  | .running =>
    match s.fetch with
    | .ok i => exec i s
    | .error _ => .next (s.halt (.unknownOpcode (s.read8 s.pc)))

/-- A new state of the controller, everything else as it was. -/
def State.setController (s : State) (c : ControllerState) : State := s.setDbg { s.dbg with controller := c }

/-- Where the controller goes at a halt: TerminalInspection when it is active (`mode = debug`), else Terminated
(60_exceptions.md R224, R233, R238; 92 D19, log 19). -/
def Debugger.atHalt (d : Debugger) : ControllerState :=
  match d.mode with
  | .debug => .terminalInspection
  | .run => .terminated

/-- After a dispatcher step: the controller sees a halt at once (60_exceptions.md R234; log 10). -/
def State.settle (s : State) : State :=
  if s.isHalted then s.setController s.dbg.atHalt else s

/-- What follows a result that is a next state. -/
def andThen (r : Result) (f : State → State) : Result :=
  match r with
  | .next s => .next (f s)
  | .fault e => .fault e
  | .refused e => .refused e

/-- One transition of the machine: the controller's, with the dispatcher step it runs, if it runs one (60_exceptions.md
R232 to R241). -/
def State.cycle (s : State) : Result :=
  match s.dbg.controller with
  | .continuousRun =>
    if s.dbg.debugFlag then .next (s.setController .pausedInteractive)
    else andThen s.dispatch State.settle
  | .singleStep 0 => .next (s.setController .pausedInteractive)
  | .singleStep (n + 1) => andThen s.dispatch fun t => (t.setController (.singleStep n)).settle
  | .pausedInteractive => .next (s.setDbg (s.dbg.readCommand Debugger.pausedCommand))
  | .terminalInspection => .next (s.setDbg (s.dbg.readCommand Debugger.inspectionCommand))
  | .terminated => .next s

/-- The state in which the very next transition fetches and runs the instruction whose bytes are given: they are at PC, the
core is running, and the controller runs without pausing. -/
def State.readyToRun (s : State) (bytes : List Byte) : State :=
  ((s.setMem (Memory.writeBytes s.mem s.pc bytes)).setRun .running).setDbg
    { s.dbg with controller := .continuousRun, debugFlag := false }

end Sys2Proof.Machine
end

