-- ==== Sys2Proof/Machine/Step.lean ====
section
/-!
DEFINITION. The step of the machine and the placing of one instruction where the step fetches.
-/

namespace Sys2Proof.Machine

/-- One step of the machine: one transition of the debug controller with the dispatcher step it wraps (60_exceptions.md
R232; 40_pipeline.md R100). -/
def step (s : State) : Host.Outcome State Fault Refusal := s.cycle

/-- `s` with the instruction of an opcode-table word where `step` fetches next, so that the very next step runs it; it
stands for the load of a program from outside (log 16). -/
def State.withFetchWord (s : State) (nbits w : Nat) : State := s.readyToRun (tableBytes nbits w)

end Sys2Proof.Machine
end

