-- ==== Sys2Proof/Machine/Loader.lean ====
section
/-!
DEFINITION. The reduced contracts of the two loaders (30_encoding.md R85, R86), which place a program in memory after
construction and before the first step (70_reset_and_hazards.md R261). No step calls them (log 16).
-/

namespace Sys2Proof.Machine

/-- Load format A reduced to the core: the k-th byte is written at `(0x8000 + k) mod 65536` (30_encoding.md R85). -/
def State.loadBytes (s : State) (bytes : List Byte) : State :=
  s.setMem (Memory.writeBytes s.mem Config.loadBase bytes)

/-- Source lines encoded in order, each at the cursor the line before returned, up to a blank line or the end
(30_encoding.md R86). -/
def assembleLines (omitted : List Form) (m : Memory) (cursor : Word) : List Text → Except AssemblerError (Memory × Word)
  | [] => .ok (m, cursor)
  | line :: rest =>
    if trimBlanks line = [] then .ok (m, cursor)
    else
      match assembleLine omitted m cursor line with
      | .error e => .error e
      | .ok (m', cursor') => assembleLines omitted m' cursor' rest

/-- Load format B: the lines encoded from 0x8000 upward; an error on any line is an error of the load, and there is no
state to start (30_encoding.md R86). -/
def State.loadAssembly (s : State) (lines : List Text) : Except AssemblerError State :=
  match assembleLines s.omitted s.mem Config.loadBase lines with
  | .error e => .error e
  | .ok (m, _) => .ok (s.setMem m)

end Sys2Proof.Machine
end

