-- ==== Sys2Proof/Safety.lean ====
section
/-!
DEFINITION. The terms in which claims about runs are stated: the invariant of every state a run meets, and the normal end
of a program.
-/

namespace Sys2Proof.Machine

/-- The debug controller's state agrees with the run status, the mode and the debug flag: it pauses and steps only in
`mode = debug` with the debug flag set; it runs, steps and pauses only while the core runs; it inspects only after a
halt; and in `mode = run` it terminates only by a halt (60_exceptions.md R232 to R240). -/
def State.controllerOk (s : State) : Bool :=
  (!s.dbg.debugFlag || s.dbg.mode == .debug) &&
  match s.dbg.controller with
  | .continuousRun => !s.isHalted
  | .singleStep _ | .pausedInteractive => !s.isHalted && s.dbg.debugFlag
  | .terminalInspection => s.isHalted && s.dbg.mode == .debug
  | .terminated => s.isHalted || s.dbg.mode == .debug

/-- The invariant of the machine: memory in its canonical form and a consistent controller. -/
def State.Inv (s : State) : Prop := Memory.wf s.mem ∧ s.controllerOk = true

/-- A program's normal end: the core halted by BRK; "a halt by unknown opcode is then a failure of the claim"
(60_exceptions.md R221). -/
def State.endedByBrk (s : State) : Bool := s.run == .halted .brk

/-- Two states with the same CPU: every part of the architectural tuple of 10_state.md R20 and the opcode ROM; only the
debug controller may differ. -/
def State.sameCpu (s t : State) : Prop := t = s.setDbg t.dbg

end Sys2Proof.Machine
end

