-- ==== Sys2Proof/Certificates/Slice0/Obligations.lean ====
section
/-!
DEFINITION. The statements about the PH6502 core, for the provers. Each says in its docstring which rule of spec/ it states
and where it rests on a decision that is the spec's own (92_eei_decisions.md) or the model's (log n is
notes/assumptions/n.md).
-/

open Sys2Proof Sys2Proof.Machine

namespace Sys2Proof.Claims

/-- P.C, bit 0 of P (10_state.md R26, R30). -/
def carry (s : State) : Bool := s.p.getLsbD 0

/-- P.Z, bit 1 of P (10_state.md R26, R29). -/
def zero (s : State) : Bool := s.p.getLsbD 1

/-- P.V, bit 6 of P (10_state.md R26, R28). -/
def overflow (s : State) : Bool := s.p.getLsbD 6

/-- P.N, bit 7 of P (10_state.md R26, R27). -/
def negative (s : State) : Bool := s.p.getLsbD 7

/-- Every bit of P but those listed is in `t` as in `s`. -/
def keepsBitsBut (written : List Nat) (s t : State) : Prop :=
  ∀ k, k ∉ written → t.p.getLsbD k = s.p.getLsbD k

/-- N and Z of `t` are those of the byte `r`. -/
def signsOf (r : Byte) (t : State) : Prop := negative t = r.getLsbD 7 ∧ (zero t = true ↔ r = 0)

/-- `t` differs from `s` at most in A, P and PC. -/
def onlyAPPc (s t : State) : Prop := t = { s with a := t.a, p := t.p, pc := t.pc }

/-- `t` differs from `s` at most in X, P and PC. -/
def onlyXPPc (s t : State) : Prop := t = { s with x := t.x, p := t.p, pc := t.pc }

/-- `t` differs from `s` at most in P and PC. -/
def onlyPPc (s t : State) : Prop := t = { s with p := t.p, pc := t.pc }

/-- From every state the instruction completes, PC moves `len + 1` bytes on, and `effect` relates the state before, an
operand value and the state after. -/
def completes (i : Instr) (bytes : Word) (v : State → Byte) (effect : State → Byte → State → Prop) : Prop :=
  ∀ s : State, ∃ t : State, exec i s = .next t ∧ t.pc = s.pc + bytes ∧ effect s (v s) t

/-- The three forms of an instruction that reads an operand, with the operand value of each mode (40_pipeline.md R106,
R107, R108, R110). -/
def completesInEachMode (imm : Byte → Instr) (abs absX : Word → Instr) (effect : State → Byte → State → Prop) : Prop :=
  (∀ v : Byte, completes (imm v) 2 (fun _ => v) effect) ∧
  (∀ base : Word, completes (abs base) 3 (fun s => Memory.read8 s.mem base) effect) ∧
  (∀ base : Word, completes (absX base) 3 (fun s => Memory.read8 s.mem (base + s.x.setWidth 16)) effect)

/-- `k` dispatcher steps one after another, with no debug controller around them. -/
def dispatches : Nat → State → Result
  | 0, s => .next s
  | k + 1, s =>
    match s.dispatch with
    | .next t => dispatches k t
    | .fault e => .fault e
    | .refused e => .refused e

/-- The machine is about to run the dispatcher without pausing. -/
def runsFreely (s : State) : Prop :=
  s.run = .running ∧ s.dbg.controller = .continuousRun ∧ s.dbg.debugFlag = false

/-- `t` is `s` but for the address range `n` bytes long at `start`, both read byte by byte. -/
def sameOutside (start : Word) (n : Nat) (s t : State) : Prop :=
  ∀ a : Word, (∀ k, k < n → a ≠ start + BitVec.ofNat 16 k) → Memory.read8 t.mem a = Memory.read8 s.mem a

end Sys2Proof.Claims

open Sys2Proof.Claims

/-! ## Encoding -/

/-- Twelve words written out from the rows of 30_encoding.md R66, at least one for every family, decode to their instructions,
and the byte 0x02, in no row, is rejected by name. The opcode values but 0x00, 0xA9 and 0x8D are the spec's decision D1
(log 2); that 0x00 alone is a whole BRK is its decision D6 (log 5). -/
def Obligations.TableWordsDecodeToTheirInstructions : Prop :=
  decode [] [0b01101001, 0x50] = .ok (.adcImm 0x50, []) ∧
  decode [] [0b11111101, 0x34, 0x12] = .ok (.sbcAbsX 0x1234, []) ∧
  decode [] [0b01001101, 0x34, 0x12] = .ok (.eorAbs 0x1234, []) ∧
  decode [] [0b01101010] = .ok (.ror, []) ∧
  decode [] [0b11001001, 0x20] = .ok (.cmpImm 0x20, []) ∧
  decode [] [0b10101001, 0x05, 0b10001101, 0x00, 0x90] = .ok (.ldaImm 0x05, [0x8D, 0x00, 0x90]) ∧
  decode [] [0b10001101, 0x00, 0x90] = .ok (.staAbs 0x9000, []) ∧
  decode [] [0b11101000] = .ok (.inx, []) ∧
  decode [] [0b00111000] = .ok (.sec, []) ∧
  decode [] [0b10010000, 0x05] = .ok (.bcc 0x05, []) ∧
  decode [] [0b01001100, 0x34, 0x12] = .ok (.jmp 0x1234, []) ∧
  decode [] [0b00000000] = .ok (.brk, []) ∧
  decode [] [0b00000010] = .error (.unknownOpcode 0x02)

/-- Decoding the bytes an instruction encodes to gives the instruction back, whatever follows it, for every instruction of
every implementation and every operand. -/
def Obligations.DecodeOfEncodeIsTheInstruction : Prop :=
  ∀ (omitted : List Form) (i : Instr) (rest : List Byte), i.wellFormed omitted = true →
    decode omitted (encode i ++ rest) = .ok (i, rest)

/-- Encoding what was decoded gives the bytes back, and only instructions of the implementation are ever decoded. -/
def Obligations.EncodeOfDecodeIsTheBytes : Prop :=
  ∀ (omitted : List Form) (bytes : List Byte) (i : Instr) (rest : List Byte),
    decode omitted bytes = .ok (i, rest) → encode i ++ rest = bytes ∧ i.wellFormed omitted = true

/-- A byte sequence is refused as an unknown opcode exactly when its first byte starts no instruction of the
implementation (30_encoding.md R67, R70). -/
def Obligations.UnknownOpcodesAreExactlyTheBytesOutsideTheRom : Prop :=
  ∀ (omitted : List Form) (b : Byte) (rest : List Byte),
    decode omitted (b :: rest) = .error (.unknownOpcode b) ↔
      ∀ i : Instr, i.wellFormed omitted = true → (encode i).head? ≠ some b

/-- The ROM's two directions are inverse to each other on the rows of the implementation (30_encoding.md R68). -/
def Obligations.RomDirectionsAreMutuallyInverse : Prop :=
  ∀ (omitted : List Form) (f : Form) (b : Byte), f ∉ omitted →
    (opcodeOf? f = some b ↔ romRow? omitted b = some ⟨f, b⟩)

/-- 30_encoding.md R61: the operand byte count of each mode, and the length of every instruction of that mode. -/
def Obligations.AddressingModeFixesTheLength : Prop :=
  ∀ i : Instr,
    i.mode.operandBytes = (match i.mode with | .imp => 0 | .acc => 0 | .imm => 1 | .rel => 1 | .abs => 2 | .absX => 2) ∧
    (encode i).length = 1 + i.mode.operandBytes

/-! ## Memory -/

/-- Two memories in canonical form that read alike at every address are equal as data (the model's own form of the
65536 cells of 20_memory.md R40). -/
def Obligations.CanonicalMemoriesReadingAlikeAreEqual : Prop :=
  ∀ m m' : Memory, Memory.wf m → Memory.wf m' →
    (∀ a : Word, Memory.read8 m a = Memory.read8 m' a) → m = m'

/-- 20_memory.md R44: read16LE is the low byte at addr and the high byte at addr+1 modulo 65536; at 0xFFFF the high byte
comes from 0x0000. -/
def Obligations.Read16IsLittleEndianAndWraps : Prop :=
  ∀ (m : Memory) (a : Word),
    (Memory.read16 m a).toNat = (Memory.read8 m a).toNat + 256 * (Memory.read8 m (a + 1)).toNat ∧
    (a = 0xFFFF → (Memory.read16 m a).toNat = (Memory.read8 m 0xFFFF).toNat + 256 * (Memory.read8 m 0).toNat)

/-- 30_encoding.md R85 reduced to the core: the k-th byte of a loaded stream stands at (0x8000 + k) mod 65536, every other
cell and every other part of the machine is as before. The wrap past 0xFFFF is the spec's decision D21. -/
def Obligations.LoadPlacesEachByteFrom8000Upward : Prop :=
  ∀ (s : State) (bytes : List Byte), bytes.length ≤ 65536 →
    (∀ (k : Nat) (h : k < bytes.length),
      Memory.read8 (s.loadBytes bytes).mem (0x8000 + BitVec.ofNat 16 k) = bytes[k]) ∧
    sameOutside 0x8000 bytes.length s (s.loadBytes bytes) ∧
    s.loadBytes bytes = { s with mem := (s.loadBytes bytes).mem }

/-! ## Flags, resolver and PC -/

/-- 40_pipeline.md R113: `setNZ(r)` sets N to r[7] and Z to (r = 0) and changes no other bit of P and nothing else;
`deriveFromAccumulator` is `setNZ(A')` and `deriveFromIndexX` is `setNZ(X')`. -/
def Obligations.SetNZWritesNegativeAndZeroAlone : Prop :=
  ∀ (s : State) (r : Byte),
    (signsOf r (s.setNZ r) ∧ keepsBitsBut [7, 1] s (s.setNZ r) ∧ s.setNZ r = { s with p := (s.setNZ r).p }) ∧
    s.setANZ r = { s.setNZ r with a := r } ∧
    s.setXNZ r = { s.setNZ r with x := r }

/-- The operand of a fetched instruction is what its mode's operand bytes at pc0+1 and pc0+2 hold, addresses modulo 65536,
little-endian (30_encoding.md R63; 40_pipeline.md R106, R107). -/
def Obligations.FetchedOperandsComeFromTheBytesAfterTheOpcode : Prop :=
  ∀ (s : State) (i : Instr), s.fetch = .ok i →
    match i.mode with
    | .imp | .acc => i.operand = 0 ∧ i.mode.operandBytes = 0
    | .imm | .rel => i.operand = (Memory.read8 s.mem (s.pc + 1)).setWidth 16 ∧ i.mode.operandBytes = 1
    | .abs | .absX => i.operand = Memory.read16 s.mem (s.pc + 1) ∧ i.mode.operandBytes = 2

/-- 40_pipeline.md R108: the Absolute-Indexed-by-X address of a fetched instruction is (MemRead16(pc0 + 1) + X) mod 65536,
X an unsigned byte, with two operand bytes; base 0xFFFF with X = 0xFF gives 0x00FE. -/
def Obligations.AbsoluteIndexedAddressAddsXAndWraps : Prop :=
  (∀ (s : State) (i : Instr), s.fetch = .ok i → i.mode = .absX →
    (s.absXAddress i.operand).toNat = ((Memory.read16 s.mem (s.pc + 1)).toNat + s.x.toNat) % 65536 ∧
    i.mode.operandBytes = 2) ∧
  (∀ s : State, s.x = 0xFF → s.absXAddress 0xFFFF = 0x00FE)

/-- 30_encoding.md R65 and 40_pipeline.md R109: the displacement is operand byte 1 as a two's-complement number in -128..127,
not scaled; the target is (pc0 + 2 + disp) mod 65536; there is one operand byte, and only the six branches use the mode. -/
def Obligations.RelativeOperandIsASignedDisplacement : Prop :=
  (∀ (s : State) (i : Instr), s.fetch = .ok i → i.mode = .rel →
    let byte1 := Memory.read8 s.mem (s.pc + 1)
    let disp : Int := if byte1.getLsbD 7 then (byte1.toNat : Int) - 256 else byte1.toNat
    i.operand = byte1.setWidth 16 ∧ (displacement byte1).toInt = disp ∧ -128 ≤ disp ∧ disp ≤ 127 ∧
    ((s.branchTarget byte1).toNat : Int) = ((s.pc.toNat : Int) + 2 + disp) % 65536 ∧
    i.mode.operandBytes = 1) ∧
  (∀ i : Instr, i.mode = .rel ↔ i.mnemonic ∈ [.bcc, .bcs, .beq, .bne, .bmi, .bpl])

/-- 40_pipeline.md R111: every instruction that is not a control transfer leaves PC at (pc0 + 1 + len) mod 65536, and none of
its other effects reads PC: run at any other address `q` it does the same and leaves PC past itself there. -/
def Obligations.SequentialInstructionsMovePcPastThemselves : Prop :=
  ∀ (i : Instr) (s t : State), exec i s = .next t →
    i.mnemonic ∉ [.bcc, .bcs, .beq, .bne, .bmi, .bpl, .jmp, .brk] →
    t.pc.toNat = (s.pc.toNat + 1 + i.mode.operandBytes) % 65536 ∧
    ∀ q : Word, exec i { s with pc := q } = .next { t with pc := q + 1 + BitVec.ofNat 16 i.mode.operandBytes }

/-! ## What each instruction does: result, frame and completion in one -/

/-- ADC in its three modes (41_arithmetic.md R130). -/
def Obligations.AdcAddsWithCarryAndSetsFourFlags : Prop :=
  completesInEachMode .adcImm .adcAbs .adcAbsX fun s v t =>
    let sum := s.a.toNat + v.toNat + (carry s).toNat
    t.a.toNat = sum % 256 ∧
    (carry t = true ↔ sum > 255) ∧
    (overflow t = true ↔ s.a.getLsbD 7 = v.getLsbD 7 ∧ t.a.getLsbD 7 ≠ s.a.getLsbD 7) ∧
    signsOf t.a t ∧ keepsBitsBut [7, 6, 1, 0] s t ∧ onlyAPPc s t

/-- SBC in its three modes (41_arithmetic.md R131). That the effective operand v + 1 - Cin is compared as an integer 0..256
and not reduced is the spec's decision D7 (log 6). -/
def Obligations.SbcSubtractsWithBorrowAndSetsFourFlags : Prop :=
  completesInEachMode .sbcImm .sbcAbs .sbcAbsX fun s v t =>
    let eff := v.toNat + 1 - (carry s).toNat
    (t.a.toNat : Int) = ((s.a.toNat : Int) - (eff : Int)) % 256 ∧
    (carry t = true ↔ s.a.toNat ≥ eff) ∧
    (overflow t = true ↔ s.a.getLsbD 7 ≠ v.getLsbD 7 ∧ t.a.getLsbD 7 ≠ s.a.getLsbD 7) ∧
    signsOf t.a t ∧ keepsBitsBut [7, 6, 1, 0] s t ∧ onlyAPPc s t

/-- SBC is the addition of the complement: the same A and the same four flags as ADC of `v ^ 0xFF`, in every mode's shared
operation. The Carry half is the consequence 41_arithmetic.md R131 marks as derived from the reading of D7 (log 6). -/
def Obligations.SbcIsAdcOfTheComplement : Prop :=
  ∀ (s : State) (v : Byte), s.sbc v = s.adc (v ^^^ 0xFF)

/-- AND, EOR and ORA in their three modes (42_logical.md R140, R141, R142). -/
def Obligations.LogicalInstructionsCombineAWithTheOperand : Prop :=
  let effect (op : Byte → Byte → Byte) : State → Byte → State → Prop := fun s v t =>
    t.a = op s.a v ∧ signsOf t.a t ∧ keepsBitsBut [7, 1] s t ∧ onlyAPPc s t
  completesInEachMode .andImm .andAbs .andAbsX (effect fun a v => a &&& v) ∧
  completesInEachMode .eorImm .eorAbs .eorAbsX (effect fun a v => a ^^^ v) ∧
  completesInEachMode .oraImm .oraAbs .oraAbsX (effect fun a v => a ||| v)

/-- ASL and LSR (43_shift.md R150, R151): A shifted by one bit, a zero shifted in, the bit shifted out in Carry. -/
def Obligations.ShiftsMoveOneBitIntoCarry : Prop :=
  completes .asl 1 (fun s => s.a) (fun s a t =>
    t.a.toNat = 2 * a.toNat % 256 ∧ carry t = a.getLsbD 7 ∧ signsOf t.a t ∧ keepsBitsBut [7, 1, 0] s t ∧
    onlyAPPc s t) ∧
  completes .lsr 1 (fun s => s.a) (fun s a t =>
    t.a.toNat = a.toNat / 2 ∧ carry t = a.getLsbD 0 ∧ signsOf t.a t ∧ keepsBitsBut [7, 1, 0] s t ∧
    onlyAPPc s t)

/-- ROL and ROR (43_shift.md R152, R153): the incoming Carry fills the vacated bit, the bit rotated out is the new Carry. -/
def Obligations.RotatesGoThroughCarry : Prop :=
  completes .rol 1 (fun s => s.a) (fun s a t =>
    t.a.toNat = (2 * a.toNat + (carry s).toNat) % 256 ∧ carry t = a.getLsbD 7 ∧ signsOf t.a t ∧
    keepsBitsBut [7, 1, 0] s t ∧ onlyAPPc s t) ∧
  completes .ror 1 (fun s => s.a) (fun s a t =>
    t.a.toNat = a.toNat / 2 + 128 * (carry s).toNat ∧ carry t = a.getLsbD 0 ∧ signsOf t.a t ∧
    keepsBitsBut [7, 1, 0] s t ∧ onlyAPPc s t)

/-- Rotating left and then right gives A and Carry back, in every state (43_shift.md R152, R153). -/
def Obligations.RorUndoesRol : Prop :=
  ∀ s : State, s.rol.ror.a = s.a ∧ carry s.rol.ror = carry s ∧ s.ror.rol.a = s.a ∧ carry s.ror.rol = carry s

/-- CMP in its three modes (44_compare.md R160): C, Z, N from A - v; A and V unchanged. -/
def Obligations.CmpComparesWithoutWritingA : Prop :=
  completesInEachMode .cmpImm .cmpAbs .cmpAbsX fun s v t =>
    (carry t = true ↔ s.a.toNat ≥ v.toNat) ∧
    (zero t = true ↔ s.a = v) ∧
    negative t = (s.a - v).getLsbD 7 ∧
    keepsBitsBut [7, 1, 0] s t ∧ onlyPPc s t

/-- LDA in its three modes and LDX in its two (45_load_store.md R170, R171). That LDX has no absolute indexed form is the
spec's decision D2 (log 2). -/
def Obligations.LoadsPutTheOperandInTheRegister : Prop :=
  completesInEachMode .ldaImm .ldaAbs .ldaAbsX (fun s v t =>
    t.a = v ∧ signsOf v t ∧ keepsBitsBut [7, 1] s t ∧ onlyAPPc s t) ∧
  (let effect : State → Byte → State → Prop := fun s v t =>
    t.x = v ∧ signsOf v t ∧ keepsBitsBut [7, 1] s t ∧ onlyXPPc s t
   (∀ v : Byte, completes (.ldxImm v) 2 (fun _ => v) effect) ∧
   (∀ base : Word, completes (.ldxAbs base) 3 (fun s => Memory.read8 s.mem base) effect))

/-- STA in its two modes and STX (45_load_store.md R172, R173): the byte at the effective address becomes A or X, every
other byte reads as before, and nothing else but PC changes. -/
def Obligations.StoresWriteOneByteAtTheEffectiveAddress : Prop :=
  let effect (ea : State → Word) : State → Byte → State → Prop := fun s v t =>
    Memory.read8 t.mem (ea s) = v ∧
    (∀ b : Word, b ≠ ea s → Memory.read8 t.mem b = Memory.read8 s.mem b) ∧
    t = { s with mem := t.mem, pc := t.pc }
  ∀ base : Word,
    completes (.staAbs base) 3 (fun s => s.a) (effect fun _ => absAddress base) ∧
    completes (.staAbsX base) 3 (fun s => s.a) (effect fun s => s.absXAddress base) ∧
    completes (.stxAbs base) 3 (fun s => s.x) (effect fun _ => absAddress base)

/-- INX and DEX (46_register.md R180, R181): X plus or minus one modulo 256, with N and Z, Carry untouched by the wrap. -/
def Obligations.IncrementAndDecrementOfXWrap : Prop :=
  completes .inx 1 (fun s => s.x) (fun s x t =>
    t.x.toNat = (x.toNat + 1) % 256 ∧ signsOf t.x t ∧ keepsBitsBut [7, 1] s t ∧ onlyXPPc s t) ∧
  completes .dex 1 (fun s => s.x) (fun s x t =>
    (t.x.toNat : Int) = ((x.toNat : Int) - 1) % 256 ∧ signsOf t.x t ∧ keepsBitsBut [7, 1] s t ∧ onlyXPPc s t)

/-- TAX and TXA (46_register.md R182, R183). -/
def Obligations.TransfersCopyBetweenAAndX : Prop :=
  completes .tax 1 (fun s => s.a) (fun s a t =>
    t.x = a ∧ signsOf t.x t ∧ keepsBitsBut [7, 1] s t ∧ onlyXPPc s t) ∧
  completes .txa 1 (fun s => s.x) (fun s x t =>
    t.a = x ∧ signsOf t.a t ∧ keepsBitsBut [7, 1] s t ∧ onlyAPPc s t)

/-- CLC and SEC (47_flag.md R190, R191): Carry cleared or set, no other bit of P and nothing else but PC changed. -/
def Obligations.ClcAndSecWriteCarryAlone : Prop :=
  completes .clc 1 (fun s => s.a) (fun s _ t => carry t = false ∧ keepsBitsBut [0] s t ∧ onlyPPc s t) ∧
  completes .sec 1 (fun s => s.a) (fun s _ t => carry t = true ∧ keepsBitsBut [0] s t ∧ onlyPPc s t)

/-- The six branches (48_control.md R200 to R206): PC goes to the address after the operand plus the signed displacement
when the flag matches, else to the address after the operand; nothing else changes. Which flag and value BCS, BEQ, BNE,
BMI and BPL test is the spec's decision D8 (log 7). -/
def Obligations.BranchesFollowTheirFlag : Prop :=
  ∀ (d : Byte) (s : State),
    let next : Int := (s.pc.toNat : Int) + 2
    let rule (i : Instr) (cond : Bool) : Prop := ∃ t : State, exec i s = .next t ∧ t = { s with pc := t.pc } ∧
      (t.pc.toNat : Int) = (if cond then next + d.toInt else next) % 65536
    rule (.bcc d) (!carry s) ∧ rule (.bcs d) (carry s) ∧ rule (.beq d) (zero s) ∧
    rule (.bne d) (!zero s) ∧ rule (.bmi d) (negative s) ∧ rule (.bpl d) (!negative s)

/-- JMP (48_control.md R207): PC becomes the absolute target and nothing else changes. -/
def Obligations.JmpSetsPcToItsOperand : Prop :=
  ∀ (target : Word) (s : State), exec (.jmp target) s = .next { s with pc := target }

/-- BRK (48_control.md R208): the run status becomes Halted(Brk); no register, flag or memory cell changes. That PC keeps
the address of the BRK, and that BRK is one byte long, are the spec's decisions D5 and D6 (logs 4, 5). -/
def Obligations.BrkHaltsAndChangesNothingElse : Prop :=
  ∀ s : State, exec .brk s = .next { s with run := .halted .brk }

/-! ## Frames over all instructions -/

/-- Only STA and STX write memory (20_memory.md R43): after any other instruction every address reads as before. -/
def Obligations.OnlyStoresChangeMemory : Prop :=
  ∀ (i : Instr) (s t : State), exec i s = .next t → i.mnemonic ∉ [.sta, .stx] →
    ∀ a : Word, Memory.read8 t.mem a = Memory.read8 s.mem a

/-- The frame of the storing forms: the address stored to is the one the meaning computes, and every address outside that
one byte reads as before (20_memory.md R43, 45_load_store.md R172, R173). -/
def Obligations.StoresChangeOnlyTheirOwnByte : Prop :=
  ∀ (i : Instr) (s t : State) (base ea : Word), exec i s = .next t →
    ((i = .staAbs base ∨ i = .stxAbs base) ∧ ea = absAddress base ∨ i = .staAbsX base ∧ ea = s.absXAddress base) →
    sameOutside ea 1 s t ∧ t = { s with mem := t.mem, pc := t.pc }

/-- Who may write each register and flag, over all 44 instructions: the table of 10_state.md R36 (marked there as derived
from the instruction rules), with the debug controller and the ROM out of every instruction's reach. -/
def Obligations.EachRegisterAndFlagHasOnlyItsListedWriters : Prop :=
  ∀ (i : Instr) (s t : State), exec i s = .next t →
    (i.mnemonic ∉ [.adc, .sbc, .and, .eor, .ora, .lda, .txa, .asl, .lsr, .rol, .ror] → t.a = s.a) ∧
    (i.mnemonic ∉ [.ldx, .inx, .dex, .tax] → t.x = s.x) ∧
    (i.mnemonic ∉ [.adc, .sbc, .asl, .lsr, .rol, .ror, .cmp, .clc, .sec] → carry t = carry s) ∧
    (i.mnemonic ∈ [.sta, .stx, .clc, .sec, .bcc, .bcs, .beq, .bne, .bmi, .bpl, .jmp, .brk] →
      negative t = negative s ∧ zero t = zero s) ∧
    (i.mnemonic ∉ [.adc, .sbc] → overflow t = overflow s) ∧
    (i.mnemonic ≠ .brk → t.run = s.run) ∧
    keepsBitsBut [7, 6, 1, 0] s t ∧ t.y = s.y ∧ t.s = s.s ∧ t.omitted = s.omitted ∧ t.dbg = s.dbg

/-- No instruction reads Overflow (10_state.md R28 marks it as derived from the closed list of mnemonics): ADC and SBC
give the same state whatever V was, and every other instruction does the same and carries V along. -/
def Obligations.NoInstructionReadsOverflow : Prop :=
  ∀ (i : Instr) (s : State) (b : Bool),
    (i.mnemonic ∈ [.adc, .sbc] → exec i (s.setFlag .overflow b) = exec i s) ∧
    (i.mnemonic ∉ [.adc, .sbc] →
      exec i (s.setFlag .overflow b) = andThen (exec i s) fun t => t.setFlag .overflow b)

/-! ## Steps and runs -/

/-- A step runs the decoded instruction: when the machine runs freely and the bytes at PC decode to `i`, the step is exec of
`i`, and if that halts the core the debug controller ends the run (40_pipeline.md R100). That it does so in the same step is
log 10; that it goes to TerminalInspection in debug mode and to Terminated otherwise is the spec's decision D19 (log 19). -/
def Obligations.StepRunsTheDecodedInstruction : Prop :=
  ∀ (s t : State) (i : Instr) (rest : List Byte), runsFreely s →
    decode s.omitted (Memory.readBytes s.mem s.pc 3) = .ok (i, rest) → exec i s = .next t →
    (t.run = .running → step s = .next t) ∧
    (t.run ≠ .running → step s = .next { t with dbg := { t.dbg with controller :=
      if t.dbg.mode = .debug then .terminalInspection else .terminated } })

/-- A fetched byte that is no opcode of the implementation halts the core: Run becomes Halted(UnknownOpcode(b)) and no
register, flag or memory cell changes (40_pipeline.md R103, 60_exceptions.md R220). That PC stays is decision D5 (log 4),
that the byte is recorded is D20 (log 20), where the controller goes by mode is D19 (R233, log 19), that it goes there in the
same step is log 10. -/
def Obligations.UnknownOpcodeHaltsAndChangesNothingElse : Prop :=
  ∀ (s : State), runsFreely s →
    (∀ i : Instr, i.wellFormed s.omitted = true → (encode i).head? ≠ some (Memory.read8 s.mem s.pc)) →
    step s = .next { s with
      run := .halted (.unknownOpcode (Memory.read8 s.mem s.pc)),
      dbg := { s.dbg with controller := if s.dbg.mode = .debug then .terminalInspection else .terminated } }

/-- Never-written memory is BRK: a core that fetches from a cell that still holds its first value halts by BRK, if BRK is
implemented (20_memory.md R50, marked there as derived). That PC stays is the spec's decision D5 (log 4), that BRK changes
nothing else is D6 (log 5), that the reason is recorded is D20 (log 20). -/
def Obligations.RunningIntoUnwrittenMemoryHaltsByBrk : Prop :=
  (∀ (c : Config) (a : Word), Memory.read8 (State.construct c).mem a = 0) ∧
  (∀ (s : State), runsFreely s → ⟨.brk, .imp⟩ ∉ s.omitted → Memory.read8 s.mem s.pc = 0 →
    ∃ t : State, step s = .next t ∧ t.endedByBrk = true ∧
      t = { s with run := t.run, dbg := t.dbg })

/-- No step stops: from every state the machine has a next state, since no access and no instruction faults (20_memory.md
R41, 60_exceptions.md R220). -/
def Obligations.EveryStepHasANextState : Prop :=
  ∀ s : State, ∃ t : State, step s = .next t

/-- Halted is never left and nothing of the CPU changes afterwards, however long the machine goes on and whatever commands
the host sends (40_pipeline.md R118). That a halted machine has a step that changes nothing is log 9. -/
def Obligations.HaltedIsForever : Prop :=
  ∀ (n : Nat) (s t : State) (r : HaltReason), s.run = .halted r → core.run n s = .next t →
    t.run = .halted r ∧ s.sameCpu t

/-- Y, S, bits 5 to 2 of P, the ROM and the mode keep their value over any number of steps, from any state (10_state.md R23,
R25, R31, marked there as derived or decided). -/
def Obligations.YSAndTheUnusedBitsOfPNeverChange : Prop :=
  ∀ (n : Nat) (s t : State), core.run n s = .next t →
    t.y = s.y ∧ t.s = s.s ∧ keepsBitsBut [7, 6, 1, 0] s t ∧ t.omitted = s.omitted ∧ t.dbg.mode = s.dbg.mode

/-- 10_state.md R35: every row of the table of values after construction and load, for every choice of the open
parameters and every loaded program. -/
def Obligations.ConstructionAndLoadGiveTheResetState : Prop :=
  ∀ (c : Config) (bytes : List Byte), bytes.length ≤ 65536 →
    let s := (State.construct c).loadBytes bytes
    (∀ (k : Nat) (h : k < bytes.length), Memory.read8 s.mem (0x8000 + BitVec.ofNat 16 k) = bytes[k]) ∧
    (∀ a : Word, (∀ k, k < bytes.length → a ≠ 0x8000 + BitVec.ofNat 16 k) → Memory.read8 s.mem a = 0) ∧
    s.pc = 0x8000 ∧ s.a = c.initA ∧ s.x = c.initX ∧ s.y = c.initY ∧ s.s = c.initS ∧ s.p = c.initP ∧
    s.run = .running ∧ s.dbg.controller = .continuousRun ∧ (s.dbg.debugFlag = true ↔ c.mode = .debug)

/-- The machine's invariant holds after every construction and load, State.reset among them. -/
def Obligations.InvariantHoldsAfterConstructionAndLoad : Prop :=
  State.reset.Inv ∧ ∀ (c : Config) (bytes : List Byte), ((State.construct c).loadBytes bytes).Inv

/-- Every step keeps the machine's invariant: memory in canonical form, and a debug controller that pauses and steps only
in debug mode, inspects only after a halt in debug mode and runs only a running core. That it inspects only in debug mode is
the spec's decision D19 (log 19); that it never runs a halted core, because it moves in the same step as the halt, is
log 10. -/
def Obligations.EveryStepKeepsTheInvariant : Prop :=
  ∀ s t : State, s.Inv → step s = .next t → t.Inv

/-- A stored byte is seen by the very next fetch (20_memory.md R54, decision D11, log 8): after STA Absolute onto the byte
after itself, the next step runs whatever instruction that byte and the two after it now spell. -/
def Obligations.StoredByteIsFetchedByTheNextStep : Prop :=
  ∀ (s : State) (i : Instr) (rest : List Byte), runsFreely s →
    s.fetch = .ok (.staAbs (s.pc + 3)) →
    decode s.omitted [s.a, Memory.read8 s.mem (s.pc + 4), Memory.read8 s.mem (s.pc + 5)] = .ok (i, rest) →
    ∃ t : State, step s = .next t ∧ t.pc = s.pc + 3 ∧ t.fetch = .ok i

/-- A store onto its own operand bytes does not change its effective address, which was read first (20_memory.md R55,
decision D11, log 8). -/
def Obligations.StoreOntoItsOwnOperandKeepsItsAddress : Prop :=
  ∀ s : State, runsFreely s → s.fetch = .ok (.staAbs (s.pc + 1)) →
    ∃ t : State, step s = .next t ∧ Memory.read8 t.mem (s.pc + 1) = s.a ∧
      (∀ a : Word, a ≠ s.pc + 1 → Memory.read8 t.mem a = Memory.read8 s.mem a)

/-! ## The debug controller -/

/-- The controller changes CPU state only by running dispatcher steps (60_exceptions.md R232): a step leaves the CPU as it
was, or leaves it as one dispatcher step does. -/
def Obligations.CpuChangesOnlyByADispatcherStep : Prop :=
  ∀ s t : State, step s = .next t →
    s.sameCpu t ∨ ∃ u : State, s.dispatch = .next u ∧ u.sameCpu t

/-- With mode = debug the first pause comes before the first fetch: one step after construction and load the controller is
paused and nothing has run (60_exceptions.md R233, decision D29, log 19). -/
def Obligations.DebugModePausesBeforeTheFirstFetch : Prop :=
  ∀ (c : Config) (bytes : List Byte), c.mode = .debug →
    ∃ t : State, step ((State.construct c).loadBytes bytes) = .next t ∧
      t.dbg.controller = .pausedInteractive ∧ ((State.construct c).loadBytes bytes).sameCpu t

/-- `step n` executes exactly n instructions and then pauses (60_exceptions.md R234): if n dispatcher steps leave the core
running, then reading the command, stepping and pausing end in the same CPU state, paused, with the later commands still
waiting. -/
def Obligations.StepCommandRunsExactlyNInstructions : Prop :=
  ∀ (n : Nat) (s u : State) (line : Text) (later : List Text),
    s.dbg.controller = .pausedInteractive → s.dbg.commands = line :: later → parseCommand line = .step n →
    s.run = .running → dispatches n s = .next u → u.run = .running →
    ∃ t : State, core.run (n + 2) s = .next t ∧ u.sameCpu t ∧
      t.dbg.controller = .pausedInteractive ∧ t.dbg.commands = later

/-- A halt while stepping ends the stepping at once, in the terminal inspection state (60_exceptions.md R234, R224). -/
def Obligations.HaltWhileSteppingEntersTerminalInspection : Prop :=
  ∀ (n : Nat) (s u : State) (r : HaltReason),
    s.dbg.controller = .singleStep (n + 1) → s.dbg.mode = .debug → s.run = .running →
    s.dispatch = .next u → u.run = .halted r →
    step s = .next { u with dbg := { s.dbg with controller := .terminalInspection } }

/-- A halt of a freely running core: TerminalInspection when the controller is active (mode = debug), Terminated when it is
not (60_exceptions.md R233, decision D19, log 19; in the same step, log 10). -/
def Obligations.HaltWhileRunningEndsByMode : Prop :=
  ∀ (s u : State) (r : HaltReason), runsFreely s → s.dispatch = .next u → u.run = .halted r →
    ∃ t : State, step s = .next t ∧ u.sameCpu t ∧
      (s.dbg.mode = .debug → t.dbg.controller = .terminalInspection) ∧
      (s.dbg.mode = .run → t.dbg.controller = .terminated)

/-- What each command does to a paused controller: `step n` starts n single steps, `m` and `i` move their cursor, `end` runs
on without pausing, `exit` terminates; none changes the CPU (60_exceptions.md R234 to R237; decisions D18, D19, D28, D31,
log 19). The queue of lines is the model's (log 12), that `m` and `i` are answered by the view is its choice (log 25). -/
def Obligations.PausedCommandsActOnTheControllerAlone : Prop :=
  ∀ (s : State) (line : Text) (later : List Text),
    s.dbg.controller = .pausedInteractive → s.dbg.commands = line :: later →
    ∃ t : State, step s = .next t ∧ s.sameCpu t ∧ t.dbg.commands = later ∧ t.dbg.mode = s.dbg.mode ∧
      (∀ n, parseCommand line = .step n →
        t.dbg.controller = .singleStep n ∧ t.dbg.debugFlag = s.dbg.debugFlag ∧
        t.dbg.memCursor = s.dbg.memCursor ∧ t.dbg.instrCursor = s.dbg.instrCursor) ∧
      (∀ a, parseCommand line = .memoryView a →
        t.dbg.controller = .pausedInteractive ∧ t.dbg.debugFlag = s.dbg.debugFlag ∧
        t.dbg.memCursor = a ∧ t.dbg.instrCursor = s.dbg.instrCursor ∧ t.dbg.reply = some .view) ∧
      (∀ a, parseCommand line = .instructionView a →
        t.dbg.controller = .pausedInteractive ∧ t.dbg.debugFlag = s.dbg.debugFlag ∧
        t.dbg.memCursor = s.dbg.memCursor ∧ t.dbg.instrCursor = a ∧ t.dbg.reply = some .view) ∧
      (parseCommand line = .endPausing →
        t.dbg.controller = .continuousRun ∧ t.dbg.debugFlag = false ∧
        t.dbg.memCursor = s.dbg.memCursor ∧ t.dbg.instrCursor = s.dbg.instrCursor) ∧
      (parseCommand line = .exit →
        t.dbg.controller = .terminated ∧ t.dbg.debugFlag = s.dbg.debugFlag ∧
        t.dbg.memCursor = s.dbg.memCursor ∧ t.dbg.instrCursor = s.dbg.instrCursor)

/-- A debug command with a missing or malformed numeric argument is rejected with InvalidCommandArgument and changes no CPU
state and no controller state (60_exceptions.md R227): `m` and `i` with a missing or non-hexadecimal address wherever the
controller reads commands, and `step`, whose argument may be missing, with a non-decimal count where it is accepted (R234,
R235; the base is the spec's decision D18, log 19). The line read leaves the model's queue of lines (log 12), and the error,
which stands for the redisplay too, is the model's `reply` (log 25). -/
def Obligations.InvalidArgumentIsRejectedAndChangesNoState : Prop :=
  ∀ (s : State) (line : Text) (later : List Text), s.dbg.commands = line :: later →
    ((s.dbg.controller = .pausedInteractive ∨ s.dbg.controller = .terminalInspection) ∧
        (splitLine line).1 ∈ [['m'], ['i']] ∧ number? 16 (splitLine line).2 = none ∨
      s.dbg.controller = .pausedInteractive ∧
        (splitLine line).1 = ['s', 't', 'e', 'p'] ∧ (splitLine line).2 ≠ [] ∧ number? 10 (splitLine line).2 = none) →
    step s = .next { s with dbg := { s.dbg with commands := later, reply := some (.invalidCommandArgument line) } }

/-- Any unrecognized command leaves the state unchanged and redisplays the view (60_exceptions.md R239): wherever the
controller reads commands, a word that is none of `step`, `m`, `i`, `end`, `exit`, and `end` or `exit` with an argument (the
model's reading, log 14); in TerminalInspection also every line of the words `step` and `end` (R238, decision D30, log 19).
The line read leaves the model's queue of lines and the view is held in the model's `reply` (log 12). -/
def Obligations.UnrecognizedCommandLeavesTheStateUnchanged : Prop :=
  ∀ (s : State) (line : Text) (later : List Text), s.dbg.commands = line :: later →
    ((s.dbg.controller = .pausedInteractive ∨ s.dbg.controller = .terminalInspection) ∧
        (splitLine line).1 ∉ [['s', 't', 'e', 'p'], ['m'], ['i'], ['e', 'n', 'd'], ['e', 'x', 'i', 't']] ∨
      (s.dbg.controller = .pausedInteractive ∨ s.dbg.controller = .terminalInspection) ∧
        (splitLine line).1 ∈ [['e', 'n', 'd'], ['e', 'x', 'i', 't']] ∧ (splitLine line).2 ≠ [] ∨
      s.dbg.controller = .terminalInspection ∧ (splitLine line).1 ∈ [['s', 't', 'e', 'p'], ['e', 'n', 'd']]) →
    step s = .next { s with dbg := { s.dbg with commands := later, reply := some .view } }

/-- TerminalInspection accepts only `m`, `i` and `exit`: it is left by `exit` alone, only `m` and `i` move a cursor, and no
CPU state changes (60_exceptions.md R238, decision D30, log 19). That the oldest line of a queue is read and the later ones
stay is log 12; that the view answers `m` and `i` and nothing answers `exit` is log 25. -/
def Obligations.TerminalInspectionAcceptsOnlyViewsAndExit : Prop :=
  ∀ (s : State) (line : Text) (later : List Text),
    s.dbg.controller = .terminalInspection → s.dbg.commands = line :: later →
    ∃ t : State, step s = .next t ∧ s.sameCpu t ∧ t.dbg.commands = later ∧
      (parseCommand line = .exit → t.dbg.controller = .terminated ∧ t.dbg.reply = none) ∧
      (parseCommand line ≠ .exit → t.dbg.controller = .terminalInspection) ∧
      t.dbg.memCursor = (match parseCommand line with | .memoryView a => a | _ => s.dbg.memCursor) ∧
      t.dbg.instrCursor = (match parseCommand line with | .instructionView a => a | _ => s.dbg.instrCursor) ∧
      (∀ a, parseCommand line = .memoryView a ∨ parseCommand line = .instructionView a → t.dbg.reply = some .view) ∧
      t.dbg.debugFlag = s.dbg.debugFlag ∧ t.dbg.mode = s.dbg.mode

/-! ## Assembler text and decoder text -/

/-- The round trip of 30_encoding.md R84 in one direction (marked there as derived): the canonical text of every instruction
of the implementation assembles at any cursor, and the decoder there renders the same text and the same next index, which is
(cursor + 1 + len) mod 65536 (R74, R76, R81; the wraps are the spec's decisions D21 and D23, log 21). -/
def Obligations.DisassemblyOfAssembledTextIsTheText : Prop :=
  ∀ (omitted : List Form) (i : Instr) (m : Memory) (cursor : Word), i.wellFormed omitted = true →
    ∃ (m' : Memory) (next : Word),
      assembleLine omitted m cursor (lineText i.form i.operand) = .ok (m', next) ∧
      disassemble omitted m' cursor = (lineText i.form i.operand, next) ∧
      next.toNat = (cursor.toNat + 1 + i.mode.operandBytes) % 65536 ∧
      Memory.readBytes m' cursor (encode i).length = encode i

/-- The round trip of 30_encoding.md R84 in the other direction (marked there as derived): the text the decoder renders for
a table opcode assembles to the same bytes at the same place, so that memory reads as before everywhere. -/
def Obligations.AssemblyOfDisassembledBytesIsTheBytes : Prop :=
  ∀ (omitted : List Form) (m : Memory) (index : Word), romRow? omitted (Memory.read8 m index) ≠ none →
    ∃ m' : Memory,
      assembleLine omitted m index (disassemble omitted m index).1 = .ok (m', (disassemble omitted m index).2) ∧
      ∀ a : Word, Memory.read8 m' a = Memory.read8 m a

/-- The encoder raises MalformedOperand exactly when the line matches no grammar or its (mnemonic, mode) pair is no row of
the implementation (30_encoding.md R75; that nothing is written then is decision D17, log 21: the error carries no memory). -/
def Obligations.AssemblerRejectsExactlyTheAbsentPairs : Prop :=
  ∀ (omitted : List Form) (m : Memory) (cursor : Word) (line : Text),
    assembleLine omitted m cursor line = .error (.malformedOperand line) ↔
      ∀ (f : Form) (operand : Word), parseLine line = some (f, operand) →
        f ∈ omitted ∨ ∀ row ∈ opcodeRom, row.form ≠ f

/-- The decoder is total and never stalls: at an opcode outside the implementation it renders the placeholder and advances by
exactly one byte, and at any other it advances by the instruction's length, one, two or three bytes (30_encoding.md R81 to
R83, decisions D15 and D23, log 21). -/
def Obligations.DisassemblerAlwaysAdvances : Prop :=
  ∀ (omitted : List Form) (m : Memory) (index : Word),
    (romRow? omitted (Memory.read8 m index) = none →
      disassemble omitted m index = (['?', '?', '?'], index + 1)) ∧
    (∀ row : RomRow, romRow? omitted (Memory.read8 m index) = some row →
      (disassemble omitted m index).2.toNat = (index.toNat + 1 + row.form.mode.operandBytes) % 65536) ∧
    ((disassemble omitted m index).2 = index + 1 ∨ (disassemble omitted m index).2 = index + 2 ∨
      (disassemble omitted m index).2 = index + 3)

/-- A load of assembly text succeeds exactly when every line before the first blank one reads as an instruction of the
implementation, and then the encodings of those instructions, in order and one after another, are loaded from 0x8000 upward
(30_encoding.md R86 with R74; `State.loadBytes` is the load of R85, whose bytes LoadPlacesEachByteFrom8000Upward states).
That a bad line stops the load is the spec's decision D17 (log 21). -/
def Obligations.AssemblyLoadSucceedsOnlyOnGoodLines : Prop :=
  ∀ (s t : State) (lines : List Text),
    s.loadAssembly lines = .ok t ↔
      ∃ program : List Instr,
        List.Forall₂ (fun line i => parseLine line = some (i.form, i.operand) ∧ i.wellFormed s.omitted = true)
          (lines.takeWhile fun l => trimBlanks l ≠ []) program ∧
        t = s.loadBytes (program.flatMap encode)

/-! ## The end of a debugged run -/

/-- Terminated is final: the controller accepts no command and runs no dispatcher step, whether or not the core still runs, so
that no step and no run changes anything (60_exceptions.md R240; after `exit` the core may still be Running, R237). That the
waiting lines stay in the model's queue is log 12. -/
def Obligations.TerminatedIsFinal : Prop :=
  ∀ s : State, s.dbg.controller = .terminated →
    (∀ t : State, step s = .next t → t = s) ∧ ∀ (n : Nat) (t : State), core.run n s = .next t → t = s
end

