-- ==== Sys2Proof/Laws/State.lean ====
section
/-!
SUPPORT. What each update of the state leaves in each field: one lemma per field per update, so that no later proof unfolds
a record update.
-/

namespace Sys2Proof.Machine

section
variable (st : State) (v : Byte)
@[simp] theorem State.setA_a : (st.setA v).a = v := rfl
@[simp] theorem State.setA_x : (st.setA v).x = st.x := rfl
@[simp] theorem State.setA_y : (st.setA v).y = st.y := rfl
@[simp] theorem State.setA_pc : (st.setA v).pc = st.pc := rfl
@[simp] theorem State.setA_s : (st.setA v).s = st.s := rfl
@[simp] theorem State.setA_p : (st.setA v).p = st.p := rfl
@[simp] theorem State.setA_mem : (st.setA v).mem = st.mem := rfl
@[simp] theorem State.setA_run : (st.setA v).run = st.run := rfl
@[simp] theorem State.setA_omitted : (st.setA v).omitted = st.omitted := rfl
@[simp] theorem State.setA_dbg : (st.setA v).dbg = st.dbg := rfl
end

section
variable (st : State) (v : Byte)
@[simp] theorem State.setX_a : (st.setX v).a = st.a := rfl
@[simp] theorem State.setX_x : (st.setX v).x = v := rfl
@[simp] theorem State.setX_y : (st.setX v).y = st.y := rfl
@[simp] theorem State.setX_pc : (st.setX v).pc = st.pc := rfl
@[simp] theorem State.setX_s : (st.setX v).s = st.s := rfl
@[simp] theorem State.setX_p : (st.setX v).p = st.p := rfl
@[simp] theorem State.setX_mem : (st.setX v).mem = st.mem := rfl
@[simp] theorem State.setX_run : (st.setX v).run = st.run := rfl
@[simp] theorem State.setX_omitted : (st.setX v).omitted = st.omitted := rfl
@[simp] theorem State.setX_dbg : (st.setX v).dbg = st.dbg := rfl
end

section
variable (st : State) (v : Byte)
@[simp] theorem State.setY_a : (st.setY v).a = st.a := rfl
@[simp] theorem State.setY_x : (st.setY v).x = st.x := rfl
@[simp] theorem State.setY_y : (st.setY v).y = v := rfl
@[simp] theorem State.setY_pc : (st.setY v).pc = st.pc := rfl
@[simp] theorem State.setY_s : (st.setY v).s = st.s := rfl
@[simp] theorem State.setY_p : (st.setY v).p = st.p := rfl
@[simp] theorem State.setY_mem : (st.setY v).mem = st.mem := rfl
@[simp] theorem State.setY_run : (st.setY v).run = st.run := rfl
@[simp] theorem State.setY_omitted : (st.setY v).omitted = st.omitted := rfl
@[simp] theorem State.setY_dbg : (st.setY v).dbg = st.dbg := rfl
end

section
variable (st : State) (v : Byte)
@[simp] theorem State.setS_a : (st.setS v).a = st.a := rfl
@[simp] theorem State.setS_x : (st.setS v).x = st.x := rfl
@[simp] theorem State.setS_y : (st.setS v).y = st.y := rfl
@[simp] theorem State.setS_pc : (st.setS v).pc = st.pc := rfl
@[simp] theorem State.setS_s : (st.setS v).s = v := rfl
@[simp] theorem State.setS_p : (st.setS v).p = st.p := rfl
@[simp] theorem State.setS_mem : (st.setS v).mem = st.mem := rfl
@[simp] theorem State.setS_run : (st.setS v).run = st.run := rfl
@[simp] theorem State.setS_omitted : (st.setS v).omitted = st.omitted := rfl
@[simp] theorem State.setS_dbg : (st.setS v).dbg = st.dbg := rfl
end

section
variable (st : State) (v : Byte)
@[simp] theorem State.setP_a : (st.setP v).a = st.a := rfl
@[simp] theorem State.setP_x : (st.setP v).x = st.x := rfl
@[simp] theorem State.setP_y : (st.setP v).y = st.y := rfl
@[simp] theorem State.setP_pc : (st.setP v).pc = st.pc := rfl
@[simp] theorem State.setP_s : (st.setP v).s = st.s := rfl
@[simp] theorem State.setP_p : (st.setP v).p = v := rfl
@[simp] theorem State.setP_mem : (st.setP v).mem = st.mem := rfl
@[simp] theorem State.setP_run : (st.setP v).run = st.run := rfl
@[simp] theorem State.setP_omitted : (st.setP v).omitted = st.omitted := rfl
@[simp] theorem State.setP_dbg : (st.setP v).dbg = st.dbg := rfl
end

section
variable (st : State) (t : Word)
@[simp] theorem State.setPc_a : (st.setPc t).a = st.a := rfl
@[simp] theorem State.setPc_x : (st.setPc t).x = st.x := rfl
@[simp] theorem State.setPc_y : (st.setPc t).y = st.y := rfl
@[simp] theorem State.setPc_pc : (st.setPc t).pc = t := rfl
@[simp] theorem State.setPc_s : (st.setPc t).s = st.s := rfl
@[simp] theorem State.setPc_p : (st.setPc t).p = st.p := rfl
@[simp] theorem State.setPc_mem : (st.setPc t).mem = st.mem := rfl
@[simp] theorem State.setPc_run : (st.setPc t).run = st.run := rfl
@[simp] theorem State.setPc_omitted : (st.setPc t).omitted = st.omitted := rfl
@[simp] theorem State.setPc_dbg : (st.setPc t).dbg = st.dbg := rfl
end

section
variable (st : State) (m : Memory)
@[simp] theorem State.setMem_a : (st.setMem m).a = st.a := rfl
@[simp] theorem State.setMem_x : (st.setMem m).x = st.x := rfl
@[simp] theorem State.setMem_y : (st.setMem m).y = st.y := rfl
@[simp] theorem State.setMem_pc : (st.setMem m).pc = st.pc := rfl
@[simp] theorem State.setMem_s : (st.setMem m).s = st.s := rfl
@[simp] theorem State.setMem_p : (st.setMem m).p = st.p := rfl
@[simp] theorem State.setMem_mem : (st.setMem m).mem = m := rfl
@[simp] theorem State.setMem_run : (st.setMem m).run = st.run := rfl
@[simp] theorem State.setMem_omitted : (st.setMem m).omitted = st.omitted := rfl
@[simp] theorem State.setMem_dbg : (st.setMem m).dbg = st.dbg := rfl
end

section
variable (st : State) (r : RunStatus)
@[simp] theorem State.setRun_a : (st.setRun r).a = st.a := rfl
@[simp] theorem State.setRun_x : (st.setRun r).x = st.x := rfl
@[simp] theorem State.setRun_y : (st.setRun r).y = st.y := rfl
@[simp] theorem State.setRun_pc : (st.setRun r).pc = st.pc := rfl
@[simp] theorem State.setRun_s : (st.setRun r).s = st.s := rfl
@[simp] theorem State.setRun_p : (st.setRun r).p = st.p := rfl
@[simp] theorem State.setRun_mem : (st.setRun r).mem = st.mem := rfl
@[simp] theorem State.setRun_run : (st.setRun r).run = r := rfl
@[simp] theorem State.setRun_omitted : (st.setRun r).omitted = st.omitted := rfl
@[simp] theorem State.setRun_dbg : (st.setRun r).dbg = st.dbg := rfl
end

section
variable (st : State) (d : Debugger)
@[simp] theorem State.setDbg_a : (st.setDbg d).a = st.a := rfl
@[simp] theorem State.setDbg_x : (st.setDbg d).x = st.x := rfl
@[simp] theorem State.setDbg_y : (st.setDbg d).y = st.y := rfl
@[simp] theorem State.setDbg_pc : (st.setDbg d).pc = st.pc := rfl
@[simp] theorem State.setDbg_s : (st.setDbg d).s = st.s := rfl
@[simp] theorem State.setDbg_p : (st.setDbg d).p = st.p := rfl
@[simp] theorem State.setDbg_mem : (st.setDbg d).mem = st.mem := rfl
@[simp] theorem State.setDbg_run : (st.setDbg d).run = st.run := rfl
@[simp] theorem State.setDbg_omitted : (st.setDbg d).omitted = st.omitted := rfl
@[simp] theorem State.setDbg_dbg : (st.setDbg d).dbg = d := rfl
end

section
variable (st : State) (f : Flag) (b : Bool)
@[simp] theorem State.setFlag_a : (st.setFlag f b).a = st.a := rfl
@[simp] theorem State.setFlag_x : (st.setFlag f b).x = st.x := rfl
@[simp] theorem State.setFlag_y : (st.setFlag f b).y = st.y := rfl
@[simp] theorem State.setFlag_pc : (st.setFlag f b).pc = st.pc := rfl
@[simp] theorem State.setFlag_s : (st.setFlag f b).s = st.s := rfl
theorem State.setFlag_p : (st.setFlag f b).p = withBit st.p f.bit b := rfl
@[simp] theorem State.setFlag_mem : (st.setFlag f b).mem = st.mem := rfl
@[simp] theorem State.setFlag_run : (st.setFlag f b).run = st.run := rfl
@[simp] theorem State.setFlag_omitted : (st.setFlag f b).omitted = st.omitted := rfl
@[simp] theorem State.setFlag_dbg : (st.setFlag f b).dbg = st.dbg := rfl
end

section
variable (st : State) (r : Byte)
@[simp] theorem State.setNZ_a : (st.setNZ r).a = st.a := rfl
@[simp] theorem State.setNZ_x : (st.setNZ r).x = st.x := rfl
@[simp] theorem State.setNZ_y : (st.setNZ r).y = st.y := rfl
@[simp] theorem State.setNZ_pc : (st.setNZ r).pc = st.pc := rfl
@[simp] theorem State.setNZ_s : (st.setNZ r).s = st.s := rfl
@[simp] theorem State.setNZ_mem : (st.setNZ r).mem = st.mem := rfl
@[simp] theorem State.setNZ_run : (st.setNZ r).run = st.run := rfl
@[simp] theorem State.setNZ_omitted : (st.setNZ r).omitted = st.omitted := rfl
@[simp] theorem State.setNZ_dbg : (st.setNZ r).dbg = st.dbg := rfl
end

section
variable (st : State) (r : Byte)
@[simp] theorem State.setANZ_a : (st.setANZ r).a = r := rfl
@[simp] theorem State.setANZ_x : (st.setANZ r).x = st.x := rfl
@[simp] theorem State.setANZ_y : (st.setANZ r).y = st.y := rfl
@[simp] theorem State.setANZ_pc : (st.setANZ r).pc = st.pc := rfl
@[simp] theorem State.setANZ_s : (st.setANZ r).s = st.s := rfl
@[simp] theorem State.setANZ_p : (st.setANZ r).p = (st.setNZ r).p := rfl
@[simp] theorem State.setANZ_mem : (st.setANZ r).mem = st.mem := rfl
@[simp] theorem State.setANZ_run : (st.setANZ r).run = st.run := rfl
@[simp] theorem State.setANZ_omitted : (st.setANZ r).omitted = st.omitted := rfl
@[simp] theorem State.setANZ_dbg : (st.setANZ r).dbg = st.dbg := rfl
end

section
variable (st : State) (r : Byte)
@[simp] theorem State.setXNZ_a : (st.setXNZ r).a = st.a := rfl
@[simp] theorem State.setXNZ_x : (st.setXNZ r).x = r := rfl
@[simp] theorem State.setXNZ_y : (st.setXNZ r).y = st.y := rfl
@[simp] theorem State.setXNZ_pc : (st.setXNZ r).pc = st.pc := rfl
@[simp] theorem State.setXNZ_s : (st.setXNZ r).s = st.s := rfl
@[simp] theorem State.setXNZ_p : (st.setXNZ r).p = (st.setNZ r).p := rfl
@[simp] theorem State.setXNZ_mem : (st.setXNZ r).mem = st.mem := rfl
@[simp] theorem State.setXNZ_run : (st.setXNZ r).run = st.run := rfl
@[simp] theorem State.setXNZ_omitted : (st.setXNZ r).omitted = st.omitted := rfl
@[simp] theorem State.setXNZ_dbg : (st.setXNZ r).dbg = st.dbg := rfl
end

section
variable (st : State) (addr : Word) (v : Byte)
@[simp] theorem State.write8_a : (st.write8 addr v).a = st.a := rfl
@[simp] theorem State.write8_x : (st.write8 addr v).x = st.x := rfl
@[simp] theorem State.write8_y : (st.write8 addr v).y = st.y := rfl
@[simp] theorem State.write8_pc : (st.write8 addr v).pc = st.pc := rfl
@[simp] theorem State.write8_s : (st.write8 addr v).s = st.s := rfl
@[simp] theorem State.write8_p : (st.write8 addr v).p = st.p := rfl
@[simp] theorem State.write8_mem : (st.write8 addr v).mem = Memory.write8 st.mem addr v := rfl
@[simp] theorem State.write8_run : (st.write8 addr v).run = st.run := rfl
@[simp] theorem State.write8_omitted : (st.write8 addr v).omitted = st.omitted := rfl
@[simp] theorem State.write8_dbg : (st.write8 addr v).dbg = st.dbg := rfl
end

section
variable (st : State) (m : Mode)
@[simp] theorem State.advance_a : (st.advance m).a = st.a := rfl
@[simp] theorem State.advance_x : (st.advance m).x = st.x := rfl
@[simp] theorem State.advance_y : (st.advance m).y = st.y := rfl
@[simp] theorem State.advance_pc : (st.advance m).pc = st.nextPc m := rfl
@[simp] theorem State.advance_s : (st.advance m).s = st.s := rfl
@[simp] theorem State.advance_p : (st.advance m).p = st.p := rfl
@[simp] theorem State.advance_mem : (st.advance m).mem = st.mem := rfl
@[simp] theorem State.advance_run : (st.advance m).run = st.run := rfl
@[simp] theorem State.advance_omitted : (st.advance m).omitted = st.omitted := rfl
@[simp] theorem State.advance_dbg : (st.advance m).dbg = st.dbg := rfl
end

section
variable (st : State) (reason : HaltReason)
@[simp] theorem State.halt_a : (st.halt reason).a = st.a := rfl
@[simp] theorem State.halt_x : (st.halt reason).x = st.x := rfl
@[simp] theorem State.halt_y : (st.halt reason).y = st.y := rfl
@[simp] theorem State.halt_pc : (st.halt reason).pc = st.pc := rfl
@[simp] theorem State.halt_s : (st.halt reason).s = st.s := rfl
@[simp] theorem State.halt_p : (st.halt reason).p = st.p := rfl
@[simp] theorem State.halt_mem : (st.halt reason).mem = st.mem := rfl
@[simp] theorem State.halt_run : (st.halt reason).run = .halted reason := rfl
@[simp] theorem State.halt_omitted : (st.halt reason).omitted = st.omitted := rfl
@[simp] theorem State.halt_dbg : (st.halt reason).dbg = st.dbg := rfl
end

section
variable (st : State) (c : ControllerState)
@[simp] theorem State.setController_a : (st.setController c).a = st.a := rfl
@[simp] theorem State.setController_x : (st.setController c).x = st.x := rfl
@[simp] theorem State.setController_y : (st.setController c).y = st.y := rfl
@[simp] theorem State.setController_pc : (st.setController c).pc = st.pc := rfl
@[simp] theorem State.setController_s : (st.setController c).s = st.s := rfl
@[simp] theorem State.setController_p : (st.setController c).p = st.p := rfl
@[simp] theorem State.setController_mem : (st.setController c).mem = st.mem := rfl
@[simp] theorem State.setController_run : (st.setController c).run = st.run := rfl
@[simp] theorem State.setController_omitted : (st.setController c).omitted = st.omitted := rfl
@[simp] theorem State.setController_dbg : (st.setController c).dbg = { st.dbg with controller := c } := rfl
end

section
variable (st : State)

/-! The address after an instruction of each mode (40_pipeline.md R111). -/

@[simp] theorem State.nextPc_imp : st.nextPc .imp = st.pc + 1 := by simp [State.nextPc, Mode.operandBytes]
@[simp] theorem State.nextPc_acc : st.nextPc .acc = st.pc + 1 := by simp [State.nextPc, Mode.operandBytes]
@[simp] theorem State.nextPc_imm : st.nextPc .imm = st.pc + 2 := by simp [State.nextPc, Mode.operandBytes, BitVec.add_assoc]
@[simp] theorem State.nextPc_rel : st.nextPc .rel = st.pc + 2 := by simp [State.nextPc, Mode.operandBytes, BitVec.add_assoc]
@[simp] theorem State.nextPc_abs : st.nextPc .abs = st.pc + 3 := by simp [State.nextPc, Mode.operandBytes, BitVec.add_assoc]
@[simp] theorem State.nextPc_absX : st.nextPc .absX = st.pc + 3 := by simp [State.nextPc, Mode.operandBytes, BitVec.add_assoc]

end

end Sys2Proof.Machine
end

