-- ==== Sys2Proof/Laws/Flags.lean ====
section
/-!
SUPPORT. The status register: what a bit of P reads after each flag setter, the facts of 10_state.md R32 and 40_pipeline.md
R113 that the proofs about instructions cite.
-/

namespace Sys2Proof.Machine

/-- Setting one bit of a byte changes that bit alone. -/
theorem getLsbD_withBit (p : Byte) (k : Nat) (b : Bool) (j : Nat) (hk : k < 8) :
    (withBit p k b).getLsbD j = if j = k then b else p.getLsbD j := by
  unfold withBit
  by_cases h : j = k
  · subst h
    cases b <;> simp [hk]
  · by_cases hj : j < 8
    · cases b <;> simp [h, hj]
    · have h0 : ∀ q : Byte, q.getLsbD j = false := fun q => BitVec.getLsbD_of_ge q j (by omega)
      simp [h, h0]

@[simp] theorem Flag.bit_negative : Flag.negative.bit = 7 := rfl
@[simp] theorem Flag.bit_overflow : Flag.overflow.bit = 6 := rfl
@[simp] theorem Flag.bit_decimal : Flag.decimal.bit = 3 := rfl
@[simp] theorem Flag.bit_interrupt : Flag.interrupt.bit = 2 := rfl
@[simp] theorem Flag.bit_zero : Flag.zero.bit = 1 := rfl
@[simp] theorem Flag.bit_carry : Flag.carry.bit = 0 := rfl

theorem Flag.bit_lt (f : Flag) : f.bit < 8 := by cases f <;> decide

theorem Flag.bit_injective {f g : Flag} (h : f.bit = g.bit) : f = g := by
  cases f <;> cases g <;> first | rfl | exact absurd h (by decide)

/-- Only P decides a flag. -/
theorem State.flag_eq (st : State) (f : Flag) : st.flag f = st.p.getLsbD f.bit := rfl

/-- A bit of P after a flag is set. -/
@[simp] theorem State.setFlag_bit (st : State) (f : Flag) (b : Bool) (j : Nat) :
    (st.setFlag f b).p.getLsbD j = if j = f.bit then b else st.p.getLsbD j :=
  getLsbD_withBit _ _ _ _ f.bit_lt

/-- A bit of P after a flag is set, the index a numeral. -/
@[simp] theorem State.setFlag_getElem (st : State) (f : Flag) (b : Bool) (j : Nat) (h : j < 8) :
    (st.setFlag f b).p[j] = if j = f.bit then b else st.p[j] :=
  st.setFlag_bit f b j

/-- A flag read after a flag is set. -/
@[simp] theorem State.flag_setFlag (st : State) (f g : Flag) (b : Bool) :
    (st.setFlag f b).flag g = if g = f then b else st.flag g := by
  rw [State.flag_eq, State.setFlag_bit, State.flag_eq]
  by_cases hg : g = f
  · rw [if_pos (congrArg Flag.bit hg), if_pos hg]
  · rw [if_neg fun e => hg (Flag.bit_injective e), if_neg hg]

/-- A bit of P after `setNZ`: bit 7 is N, bit 1 is Z, the rest is unchanged. -/
@[simp] theorem State.setNZ_bit (st : State) (r : Byte) (j : Nat) :
    (st.setNZ r).p.getLsbD j =
      if j = 1 then isZero r else if j = 7 then negativeOf r else st.p.getLsbD j := by
  rw [State.setNZ, State.setFlag_bit, State.setFlag_bit]
  rfl

/-- A bit of P after `setNZ`, the index a numeral. -/
@[simp] theorem State.setNZ_getElem (st : State) (r : Byte) (j : Nat) (h : j < 8) :
    (st.setNZ r).p[j] = if j = 1 then isZero r else if j = 7 then negativeOf r else st.p[j] :=
  st.setNZ_bit r j

end Sys2Proof.Machine
end

