-- ==== Sys2Proof/Laws/Alu.lean ====
section
/-!
SUPPORT. The shared operations of the ALU and of control transfer: for each, one lemma that gives every field it changes, so
that a proof about an instruction never unfolds it.
-/

namespace Sys2Proof.Machine

/-- Flags of one byte, set one after another, may be set in either order. -/
theorem withBit_comm (p : Byte) {j k : Nat} (a b : Bool) (hj : j < 8) (hk : k < 8) (h : j ≠ k) :
    withBit (withBit p j a) k b = withBit (withBit p k b) j a := by
  apply BitVec.eq_of_getLsbD_eq
  intro i _
  simp only [getLsbD_withBit _ _ _ _ hj, getLsbD_withBit _ _ _ _ hk]
  split <;> split <;> simp_all

/-- A flag set twice keeps the second value. -/
theorem withBit_idem (p : Byte) {k : Nat} (a b : Bool) (hk : k < 8) : withBit (withBit p k a) k b = withBit p k b := by
  apply BitVec.eq_of_getLsbD_eq
  intro i _
  simp only [getLsbD_withBit _ _ _ _ hk]
  split <;> simp_all

theorem State.setFlag_comm (st : State) {f g : Flag} (a b : Bool) (h : f ≠ g) :
    (st.setFlag f a).setFlag g b = (st.setFlag g b).setFlag f a := by
  have hb : f.bit ≠ g.bit := fun e => h (Flag.bit_injective e)
  simp [State.setFlag, State.setP, withBit_comm _ _ _ f.bit_lt g.bit_lt hb]

theorem State.setFlag_idem (st : State) (f : Flag) (a b : Bool) :
    (st.setFlag f a).setFlag f b = st.setFlag f b := by
  simp [State.setFlag, State.setP, withBit_idem _ _ _ f.bit_lt]

/-- Everything `A <- r; setNZ(r)` does (40_pipeline.md R113). -/
theorem State.setANZ_spec (st : State) (r : Byte) :
    st.setANZ r = { st with a := r, p := (st.setANZ r).p } ∧
    ∀ j, (st.setANZ r).p.getLsbD j = if j = 1 then isZero r else if j = 7 then negativeOf r else st.p.getLsbD j :=
  ⟨rfl, fun j => State.setNZ_bit _ r j⟩

/-- Everything `X <- r; setNZ(r)` does (40_pipeline.md R113). -/
theorem State.setXNZ_spec (st : State) (r : Byte) :
    st.setXNZ r = { st with x := r, p := (st.setXNZ r).p } ∧
    ∀ j, (st.setXNZ r).p.getLsbD j = if j = 1 then isZero r else if j = 7 then negativeOf r else st.p.getLsbD j :=
  ⟨rfl, fun j => State.setNZ_bit _ r j⟩

/-- Everything a shift or rotate does: A and the four bits C, Z, N (43_shift.md R150 to R153). -/
theorem State.shifted_spec (st : State) (c : Bool) (r : Byte) :
    st.shifted c r = { st with a := r, p := (st.shifted c r).p } ∧
    ∀ j, (st.shifted c r).p.getLsbD j =
      if j = 1 then isZero r else if j = 7 then negativeOf r else if j = 0 then c else st.p.getLsbD j :=
  ⟨rfl, fun j => by simp [State.shifted]; rfl⟩

/-- Everything ADC does before PC moves (41_arithmetic.md R130). -/
theorem State.adc_spec (st : State) (v : Byte) :
    let r := adcResult st.a v (st.flag .carry)
    st.adc v = { st with a := r, p := (st.adc v).p } ∧
    ∀ j, (st.adc v).p.getLsbD j =
      if j = 1 then isZero r else if j = 7 then negativeOf r else if j = 6 then adcOverflow st.a v r
      else if j = 0 then adcCarry st.a v (st.flag .carry) else st.p.getLsbD j :=
  ⟨rfl, fun j => by simp [State.adc]; rfl⟩

/-- Everything SBC does before PC moves (41_arithmetic.md R131). -/
theorem State.sbc_spec (st : State) (v : Byte) :
    let r := sbcResult st.a v (st.flag .carry)
    st.sbc v = { st with a := r, p := (st.sbc v).p } ∧
    ∀ j, (st.sbc v).p.getLsbD j =
      if j = 1 then isZero r else if j = 7 then negativeOf r else if j = 6 then sbcOverflow st.a v r
      else if j = 0 then sbcCarry st.a v (st.flag .carry) else st.p.getLsbD j :=
  ⟨rfl, fun j => by simp [State.sbc]; rfl⟩

/-- Everything CMP does before PC moves (44_compare.md R160). -/
theorem State.cmp_spec (st : State) (v : Byte) :
    st.cmp v = { st with p := (st.cmp v).p } ∧
    ∀ j, (st.cmp v).p.getLsbD j =
      if j = 7 then negativeOf (cmpResult st.a v) else if j = 1 then cmpZero st.a v
      else if j = 0 then cmpCarry st.a v else st.p.getLsbD j :=
  ⟨rfl, fun j => by simp [State.cmp]; rfl⟩

/-- SBC's effective operand as a number 0..256 (41_arithmetic.md R131). -/
theorem sbcEffective_eq (v : Byte) (cin : Bool) : sbcEffective v cin = ((v.toNat + 1 - cin.toNat : Nat) : Int) := by
  have h1 : cin.toNat ≤ 1 := Bool.toNat_le _
  unfold sbcEffective
  omega

/-- The displacement of a branch is its operand byte as a two's-complement number (30_encoding.md R65). -/
theorem displacement_toNat (d : Byte) : (displacement d).toNat = (d.toInt % 65536).toNat := by
  rw [displacement, BitVec.signExtend, BitVec.toNat_ofInt]
  rfl

/-- Everything a branch does (48_control.md R200). -/
theorem State.branch_spec (st : State) (cond : Bool) (d : Byte) :
    st.branch cond d = { st with pc := (st.branch cond d).pc } ∧
    ((st.branch cond d).pc.toNat : Int) = ((st.pc.toNat : Int) + 2 + if cond then d.toInt else 0) % 65536 := by
  refine ⟨rfl, ?_⟩
  have h := st.pc.isLt
  cases cond
  · simp [State.branch]
  · simp [State.branch, State.branchTarget, displacement_toNat, BitVec.toNat_add]
    omega

end Sys2Proof.Machine
end

