-- ==== Sys2Proof/Laws/Encoding.lean ====
section
/-!
SUPPORT. Bytes, words and the encoder: the byte laws of little-endian operands, and that every instruction has a row of
the ROM, so that its encoding is that row's opcode and its operand bytes.
-/

namespace Sys2Proof

/-- Bit `i` of a word put together from two bytes. -/
theorem getLsbD_wordOf (lo hi : Byte) (i : Nat) :
    (wordOf lo hi).getLsbD i = if i < 8 then lo.getLsbD i else hi.getLsbD (i - 8) := by
  by_cases h : i < 8
  · have h16 : i < 16 := by omega
    simp [wordOf, h, h16]
  · by_cases h16 : i < 16
    · have hl : lo.getLsbD i = false := BitVec.getLsbD_of_ge lo i (by omega)
      simp [wordOf, h, h16, hl]
    · have hl : hi.getLsbD (i - 8) = false := BitVec.getLsbD_of_ge hi _ (by omega)
      simp [wordOf, h, h16, hl]

@[simp] theorem lowByte_wordOf (lo hi : Byte) : lowByte (wordOf lo hi) = lo := by
  apply BitVec.eq_of_getLsbD_eq
  intro i h
  simp only [lowByte, BitVec.getLsbD_setWidth, getLsbD_wordOf, h, if_true, decide_true, Bool.true_and]

@[simp] theorem highByte_wordOf (lo hi : Byte) : highByte (wordOf lo hi) = hi := by
  apply BitVec.eq_of_getLsbD_eq
  intro i h
  have h8 : ¬ 8 + i < 8 := by omega
  simp only [highByte, BitVec.getLsbD_setWidth, BitVec.getLsbD_ushiftRight, getLsbD_wordOf, h, h8, if_false, decide_true,
    Bool.true_and, Nat.add_sub_cancel_left]

@[simp] theorem wordOf_bytes (w : Word) : wordOf (lowByte w) (highByte w) = w := by
  apply BitVec.eq_of_getLsbD_eq
  intro i h
  rw [getLsbD_wordOf]
  by_cases h8 : i < 8
  · simp [lowByte, h8]
  · have h2 : i - 8 < 8 := by omega
    have h3 : 8 + (i - 8) = i := by omega
    simp only [highByte, BitVec.getLsbD_setWidth, BitVec.getLsbD_ushiftRight, h8, h2, h3, if_false, decide_true, Bool.true_and]

@[simp] theorem lowByte_setWidth (b : Byte) : lowByte (b.setWidth 16) = b := by simp [lowByte]

/-- The opcode of an instruction, read from the ROM by its pair. -/
def Instr.opcode (i : Instr) : Byte := (opcodeOf? i.form).getD 0

/-- Every instruction's pair is in the ROM. -/
theorem opcodeOf_form (i : Instr) : opcodeOf? i.form = some i.opcode := by
  cases i <;> rfl

/-- An encoding is the opcode and then the operand bytes of the mode. -/
theorem encode_eq (i : Instr) : encode i = i.opcode :: operandBytesOf i.mode i.operand := by
  simp [encode, encodeForm?, opcodeOf_form, Instr.mode]

/-- A word put together from two bytes, as a number (20_memory.md R44, R45). -/
theorem wordOf_toNat (lo hi : Byte) : (wordOf lo hi).toNat = lo.toNat + 256 * hi.toNat := by
  have h1 := lo.isLt
  have h2 := hi.isLt
  have h : wordOf lo hi = BitVec.ofNat 16 (lo.toNat + 256 * hi.toNat) := by
    have h3 : hi.setWidth 16 <<< 8 &&& lo.setWidth 16 = 0 := by
      apply BitVec.eq_of_getLsbD_eq
      intro i _
      by_cases h : i < 8
      · simp [h]
      · simp [BitVec.getLsbD_of_ge lo i (by omega)]
    rw [wordOf, BitVec.or_comm, ← BitVec.add_eq_or_of_and_eq_zero _ _ h3]
    apply BitVec.eq_of_toNat_eq
    simp [Nat.shiftLeft_eq]
    omega
  rw [h]
  simp
  omega

/-- The high byte of a one-byte operand is zero. -/
theorem highByte_setWidth (b : Byte) : highByte (b.setWidth 16) = 0 := by
  apply BitVec.eq_of_getLsbD_eq
  intro i _
  simp [highByte]

/-- A word without a high byte is its low byte. -/
theorem setWidth_lowByte {w : Word} (h : highByte w = 0) : (lowByte w).setWidth 16 = w := by
  conv => rhs; rw [← wordOf_bytes w, h]
  simp [wordOf]

/-- A word is a possible operand of a mode: no high byte where there is one operand byte, zero where there is none. -/
def Mode.fits (m : Mode) (w : Word) : Prop :=
  (m.operandBytes = 1 → highByte w = 0) ∧ (m.operandBytes = 0 → w = 0)

/-- The operand of an instruction fits its mode. -/
theorem operand_fits (i : Instr) : i.mode.fits i.operand := by
  cases i <;> simp [Mode.fits, Instr.mode, Instr.form, Mode.operandBytes, Instr.operand, highByte_setWidth]

/-- The instruction found for a pair and an operand that fits has that pair and that operand. -/
theorem form_operand_of_instrOf {f : Form} {w : Word} {i : Instr} (h : instrOf? f w = some i) (hw : f.mode.fits w) :
    i.form = f ∧ i.operand = w := by
  obtain ⟨h1, h0⟩ := hw
  obtain ⟨mn, m⟩ := f
  cases mn <;> cases m <;> simp [instrOf?, readForm, oneForm, Mode.operandBytes] at h h1 h0 <;> subst h <;>
    simp [Instr.form, Instr.operand, h0] <;> exact setWidth_lowByte h1

/-- The instruction of an instruction's own pair and operand is that instruction. -/
theorem instrOf_form (i : Instr) : instrOf? i.form i.operand = some i := by
  cases i <;> simp [instrOf?, readForm, oneForm, Instr.form, Instr.operand]

/-- Every row of the ROM is found by its opcode. -/
theorem rom_find : ∀ r ∈ opcodeRom, opcodeRom.find? (fun q => q.opcode == r.opcode) = some r := by decide

/-- Every row of the ROM is found by its pair. -/
theorem rom_opcodeOf : ∀ r ∈ opcodeRom, opcodeOf? r.form = some r.opcode := by decide

/-- When a byte is found: its row is in the ROM and the implementation has it (30_encoding.md R67, R69). -/
theorem romRow_some {omitted : List Form} {b : Byte} {r : RomRow} :
    romRow? omitted b = some r ↔ r ∈ opcodeRom ∧ r.opcode = b ∧ r.form ∉ omitted := by
  constructor
  · intro h
    rw [romRow?, Option.filter_eq_some_iff] at h
    exact ⟨List.mem_of_find?_eq_some h.1, by simpa using List.find?_some h.1, by simpa using h.2⟩
  · rintro ⟨hm, rfl, ho⟩
    rw [romRow?, rom_find r hm, Option.filter_some]
    simp [ho]

/-- The row of a well-formed instruction's opcode is its own. -/
theorem romRow_opcode {omitted : List Form} {i : Instr} (h : i.wellFormed omitted = true) :
    romRow? omitted i.opcode = some ⟨i.form, i.opcode⟩ := by
  have hf : opcodeRom.find? (fun r => r.opcode == i.opcode) = some ⟨i.form, i.opcode⟩ := by cases i <;> rfl
  rw [romRow?, hf, Option.filter_some]
  exact if_pos h

/-- Every row of the ROM, with every operand, is an instruction of that row. -/
theorem instr_of_row {r : RomRow} (hr : r ∈ opcodeRom) (w : Word) :
    ∃ i, instrOf? r.form w = some i ∧ i.form = r.form := by
  revert r
  simp only [opcodeRom, romArithmetic, romData, romControl, List.forall_mem_append, List.forall_mem_cons]
  refine ⟨⟨?_, ?_⟩, ?_⟩
  all_goals
    repeat' apply And.intro
    all_goals first | exact ⟨_, rfl, rfl⟩ | exact fun _ h => absurd h List.not_mem_nil

/-- The operand bytes of a mode read back. -/
theorem takeOperand_bytes {m : Mode} {w : Word} (hw : m.fits w) (rest : List Byte) :
    takeOperand m (operandBytesOf m w ++ rest) = some (w, rest) := by
  obtain ⟨h1, h0⟩ := hw
  cases m
  · rw [h0 rfl]; rfl
  · rw [h0 rfl]; rfl
  all_goals simp [takeOperand, operandBytesOf]
  all_goals exact setWidth_lowByte (h1 rfl)

/-- What an operand that was read says about the bytes. -/
theorem takeOperand_some {m : Mode} {bytes rest : List Byte} {w : Word} (h : takeOperand m bytes = some (w, rest)) :
    operandBytesOf m w ++ rest = bytes ∧ m.fits w := by
  unfold takeOperand at h
  split at h <;> simp at h <;> obtain ⟨rfl, rfl⟩ := h <;>
    simp [operandBytesOf, Mode.fits, Mode.operandBytes, highByte_setWidth]

/-- What a decoded instruction says about the bytes: their first is the opcode of a row, the next are that row's operand
bytes. -/
theorem decode_ok {omitted : List Form} {bytes rest : List Byte} {i : Instr} (h : decode omitted bytes = .ok (i, rest)) :
    ∃ b r w more, bytes = b :: more ∧ romRow? omitted b = some r ∧
      takeOperand r.form.mode more = some (w, rest) ∧ instrOf? r.form w = some i := by
  cases bytes with
  | nil => simp [decode] at h
  | cons b more =>
    simp only [decode] at h
    split at h
    · simp at h
    · rename_i r hr
      split at h
      · simp at h
      · rename_i w rest' ht
        split at h
        · simp at h
        · rename_i j hj
          simp at h
          obtain ⟨rfl, rfl⟩ := h
          exact ⟨b, r, w, more, rfl, hr, ht, hj⟩

end Sys2Proof
end

