-- ==== Sys2Proof/Laws/Memory.lean ====
section
/-!
SUPPORT. Memory: read after write, and that every memory operation keeps the canonical form (20_memory.md R42, R43).
-/

namespace Sys2Proof.Machine

theorem Memory.lookup_drop_same (m : Memory) (k : Nat) : Memory.lookup (Memory.drop m k) k = 0 := by
  induction m with
  | nil => rfl
  | cons c rest ih =>
    by_cases h : c.1 = k
    · simpa [Memory.drop, h] using ih
    · simpa [Memory.drop, h, Memory.lookup] using ih

theorem Memory.lookup_drop_other (m : Memory) {k j : Nat} (hj : j ≠ k) :
    Memory.lookup (Memory.drop m k) j = Memory.lookup m j := by
  induction m with
  | nil => rfl
  | cons c rest ih =>
    by_cases h : c.1 = k
    · have hc : c.1 ≠ j := fun e => hj (e ▸ h)
      simpa [Memory.drop, h, Memory.lookup, Ne.symm hj] using ih
    · by_cases hc : c.1 = j
      · simp [Memory.drop, Memory.lookup, hc, hj]
      · simpa [Memory.drop, h, Memory.lookup, hc] using ih

theorem Memory.lookup_insert_same (m : Memory) (k : Nat) (v : Byte) (h0 : ∀ c ∈ m, c.1 ≠ k) :
    Memory.lookup (Memory.insert m (k, v)) k = v := by
  induction m with
  | nil => simp [Memory.insert, Memory.lookup]
  | cons d rest ih =>
    by_cases h : k < d.1
    · simp [Memory.insert, h, Memory.lookup]
    · have hd : d.1 ≠ k := h0 d (by simp)
      simpa [Memory.insert, h, Memory.lookup, hd] using ih fun c hc => h0 c (by simp [hc])

theorem Memory.lookup_insert_other (m : Memory) {k j : Nat} (v : Byte) (hj : j ≠ k) :
    Memory.lookup (Memory.insert m (k, v)) j = Memory.lookup m j := by
  induction m with
  | nil => simp [Memory.insert, Memory.lookup, Ne.symm hj]
  | cons d rest ih =>
    by_cases h : k < d.1
    · simp [Memory.insert, h, Memory.lookup, Ne.symm hj]
    · rw [Memory.insert, if_neg h]
      by_cases hd : d.1 = j
      · simp [Memory.lookup, hd]
      · simpa [Memory.lookup, hd] using ih

theorem Memory.mem_drop {m : Memory} {k : Nat} {c : Host.Cell} : c ∈ Memory.drop m k ↔ c ∈ m ∧ c.1 ≠ k := by
  simp [Memory.drop]

theorem Memory.mem_insert {m : Memory} {c d : Host.Cell} : d ∈ Memory.insert m c ↔ d = c ∨ d ∈ m := by
  induction m with
  | nil => simp [Memory.insert]
  | cons e rest ih =>
    by_cases h : c.1 < e.1
    · simp [Memory.insert, h]
    · simp [Memory.insert, h, ih]
      tauto

/-- A byte read after a byte was written (20_memory.md R42, R43), in every memory. -/
@[simp] theorem Memory.read8_write8 (m : Memory) (a b : Word) (v : Byte) :
    Memory.read8 (Memory.write8 m a v) b = if b = a then v else Memory.read8 m b := by
  unfold Memory.read8 Memory.write8
  by_cases hb : b = a
  · subst hb
    rw [if_pos rfl]
    by_cases hv : v = 0
    · rw [if_pos hv, Memory.lookup_drop_same, hv]
    · rw [if_neg hv]
      exact Memory.lookup_insert_same _ _ v fun c hc => (Memory.mem_drop.mp hc).2
  · have hn : b.toNat ≠ a.toNat := fun e => hb (BitVec.eq_of_toNat_eq e)
    rw [if_neg hb]
    by_cases hv : v = 0
    · rw [if_pos hv, Memory.lookup_drop_other _ hn]
    · rw [if_neg hv, Memory.lookup_insert_other _ v hn, Memory.lookup_drop_other _ hn]

theorem Memory.drop_wf {m : Memory} (k : Nat) (h : Memory.wf m) : Memory.wf (Memory.drop m k) :=
  ⟨h.1.filter _, fun c hc => h.2 c (Memory.mem_drop.mp hc).1⟩

theorem Memory.insert_sorted {m : Memory} (c : Host.Cell) (hs : m.Pairwise fun c d => c.1 < d.1)
    (hc : ∀ d ∈ m, d.1 ≠ c.1) : (Memory.insert m c).Pairwise fun c d => c.1 < d.1 := by
  induction m with
  | nil => simp [Memory.insert]
  | cons e rest ih =>
    rw [List.pairwise_cons] at hs
    by_cases h : c.1 < e.1
    · simp only [Memory.insert, h, if_true, List.pairwise_cons, List.mem_cons]
      refine ⟨?_, hs⟩
      rintro d (rfl | hd)
      · exact h
      · exact h.trans (hs.1 d hd)
    · have hlt : e.1 < c.1 := lt_of_le_of_ne (not_lt.mp h) (hc e (by simp))
      simp only [Memory.insert, h, if_false, List.pairwise_cons]
      refine ⟨fun d hd => ?_, ih hs.2 fun d hd => hc d (by simp [hd])⟩
      rcases Memory.mem_insert.mp hd with rfl | hd
      · exact hlt
      · exact hs.1 d hd

/-- A write keeps the canonical form. -/
theorem Memory.write8_wf {m : Memory} (a : Word) (v : Byte) (h : Memory.wf m) : Memory.wf (Memory.write8 m a v) := by
  have hd := Memory.drop_wf a.toNat h
  by_cases hv : v = 0
  · rw [Memory.write8, if_pos hv]
    exact hd
  · rw [Memory.write8, if_neg hv]
    refine ⟨Memory.insert_sorted _ hd.1 fun d hm => (Memory.mem_drop.mp hm).2, fun c hc => ?_⟩
    rcases Memory.mem_insert.mp hc with rfl | hc
    · exact ⟨a.isLt, hv⟩
    · exact hd.2 c hc

/-- So does a write of several bytes, and with it the load of a program. -/
theorem Memory.writeBytes_wf (bytes : List Byte) : ∀ {m : Memory} (a : Word), Memory.wf m →
    Memory.wf (Memory.writeBytes m a bytes) := by
  induction bytes with
  | nil => exact fun _ h => h
  | cons b rest ih => exact fun a h => ih (a + 1) (Memory.write8_wf a b h)

/-- The memory of every constructed machine is canonical. -/
theorem State.construct_wf (c : Config) : Memory.wf (State.construct c).mem := by
  simp [State.construct, Memory.wf]

/-- A read of one byte in a state. -/
theorem State.read8_eq (st : State) (a : Word) : st.read8 a = Memory.read8 st.mem a := rfl

/-- Addresses counted from the address one further. -/
theorem offset_succ (a : Word) (k : Nat) : a + 1 + BitVec.ofNat 16 k = a + BitVec.ofNat 16 (k + 1) := by
  rw [BitVec.add_assoc]
  congr 1
  apply BitVec.eq_of_toNat_eq
  simp [BitVec.toNat_add]
  omega

/-- Bytes written in two parts, the second where the first ended (30_encoding.md R86). -/
theorem Memory.writeBytes_append (bytes more : List Byte) : ∀ (m : Memory) (a : Word),
    Memory.writeBytes m a (bytes ++ more) =
      Memory.writeBytes (Memory.writeBytes m a bytes) (a + BitVec.ofNat 16 bytes.length) more := by
  induction bytes with
  | nil => exact fun m a => by simp [Memory.writeBytes]
  | cons v rest ih =>
    intro m a
    rw [List.cons_append, Memory.writeBytes, Memory.writeBytes, ih, offset_succ, List.length_cons]

/-- An address is not the one `k + 1` bytes above it, short of a whole turn of the 65536 addresses. -/
theorem offset_ne (a : Word) {k : Nat} (h : k + 1 < 65536) : a ≠ a + 1 + BitVec.ofNat 16 k := by
  intro e
  have ht := congrArg BitVec.toNat e
  have ha := a.isLt
  simp [BitVec.toNat_add] at ht
  omega

/-- Everything a write of several bytes does: each byte is at its own address, every other address reads as before. -/
theorem Memory.read8_writeBytes (bytes : List Byte) : ∀ (m : Memory) (a : Word), bytes.length ≤ 65536 →
    (∀ (k : Nat) (h : k < bytes.length), Memory.read8 (Memory.writeBytes m a bytes) (a + BitVec.ofNat 16 k) = bytes[k]) ∧
    ∀ b, (∀ k, k < bytes.length → b ≠ a + BitVec.ofNat 16 k) →
      Memory.read8 (Memory.writeBytes m a bytes) b = Memory.read8 m b := by
  induction bytes with
  | nil => exact fun m a _ => ⟨fun k h => absurd h (Nat.not_lt_zero k), fun b _ => rfl⟩
  | cons v rest ih =>
    intro m a h
    rw [List.length_cons] at h
    obtain ⟨h1, h2⟩ := ih (Memory.write8 m a v) (a + 1) (by omega)
    constructor
    · intro k hk
      cases k with
      | zero =>
        rw [Memory.writeBytes, h2 _ fun j hj => ?_]
        · simp
        · simpa using offset_ne a (by omega)
      | succ k =>
        rw [Memory.writeBytes, ← offset_succ, h1 k (by simpa using hk)]
        rfl
    · intro b hb
      rw [Memory.writeBytes, h2 b fun k hk => offset_succ a k ▸ hb (k + 1) (by simpa using hk), Memory.read8_write8, if_neg]
      simpa using hb 0 (by simp)

end Sys2Proof.Machine
end

