-- ==== Sys2Proof/Laws/Fetch.lean ====
section
/-!
SUPPORT. Fetch and decode from memory: the operand the decoder reads is the one memory holds after the opcode, so that what
`State.fetch` gives is said once (40_pipeline.md R101, R102).
-/

namespace Sys2Proof.Machine

theorem Memory.readBytes_succ (m : Memory) (a : Word) (n : Nat) :
    Memory.readBytes m a (n + 1) = Memory.read8 m a :: Memory.readBytes m (a + 1) n := rfl

@[simp] theorem Memory.length_readBytes (m : Memory) (n : Nat) : ∀ a : Word, (Memory.readBytes m a n).length = n := by
  induction n with
  | zero => exact fun _ => rfl
  | succ n ih => exact fun a => by rw [Memory.readBytes_succ, List.length_cons, ih]

/-- The bytes read from an address upward. -/
theorem Memory.getElem_readBytes (m : Memory) (n : Nat) : ∀ (a : Word) (k : Nat) (h : k < (Memory.readBytes m a n).length),
    (Memory.readBytes m a n)[k] = Memory.read8 m (a + BitVec.ofNat 16 k) := by
  induction n with
  | zero => intro a k h; simp at h
  | succ n ih =>
    intro a k h
    cases k with
    | zero => simp [Memory.readBytes]
    | succ k =>
      simp only [Memory.readBytes, List.getElem_cons_succ]
      rw [ih, offset_succ]

/-- The operand memory holds fits its mode. -/
theorem operandAt_fits (m : Memory) (a : Word) (mode : Mode) : mode.fits (operandAt m a mode) :=
  ⟨fun h => by simp [operandAt, h, highByte_setWidth], fun h => by simp [operandAt, h]⟩

/-- The operand the decoder takes from the bytes in memory is the one at their address. -/
theorem takeOperand_readBytes (m : Memory) (a : Word) (mode : Mode) (extra : Nat) :
    ∃ rest, takeOperand mode (Memory.readBytes m a (mode.operandBytes + extra)) = some (operandAt m a mode, rest) ∧
      rest.length = extra := by
  have hl := m.length_readBytes
  cases mode
  · exact ⟨_, rfl, by simp [Mode.operandBytes, hl]⟩
  · exact ⟨_, rfl, by simp [Mode.operandBytes, hl]⟩
  all_goals simp only [Mode.operandBytes, Nat.add_comm _ extra]
  all_goals exact ⟨_, rfl, hl _ _⟩

/-- Decoding the bytes in memory, with any number of further bytes: the row of the opcode with the operand memory holds. -/
theorem decode_readBytes {omitted : List Form} {m : Memory} {a : Word} {r : RomRow} (extra : Nat)
    (hr : romRow? omitted (Memory.read8 m a) = some r) :
    ∃ i rest, decode omitted (Memory.readBytes m a (1 + r.form.mode.operandBytes + extra)) = .ok (i, rest) ∧
      rest.length = extra ∧ instrOf? r.form (operandAt m (a + 1) r.form.mode) = some i ∧ i.form = r.form := by
  obtain ⟨rest, h1, h2⟩ := takeOperand_readBytes m (a + 1) r.form.mode extra
  obtain ⟨i, hi, hf⟩ := instr_of_row (romRow_some.mp hr).1 (operandAt m (a + 1) r.form.mode)
  refine ⟨i, rest, ?_, h2, hi, hf⟩
  rw [show 1 + r.form.mode.operandBytes + extra = (r.form.mode.operandBytes + extra) + 1 by omega,
    Memory.readBytes_succ]
  simp only [decode, hr, h1, hi]

/-- Everything a fetch can give: an instruction, exactly of the opcode's row with the operand after it. -/
theorem State.fetch_ok {s : State} {i : Instr} :
    s.fetch = .ok i ↔ ∃ r, romRow? s.omitted (s.read8 s.pc) = some r ∧
      instrOf? r.form (operandAt s.mem (s.pc + 1) r.form.mode) = some i := by
  unfold State.fetch
  cases hr : romRow? s.omitted (s.read8 s.pc) with
  | none => simp
  | some r =>
    obtain ⟨j, rest, h1, _, h2, _⟩ := decode_readBytes 0 hr
    rw [Nat.add_zero] at h1
    simp only [h1, Option.some.injEq, exists_eq_left', h2, Except.ok.injEq]

/-- The parts of a fetched instruction. -/
theorem State.fetch_parts {s : State} {i : Instr} (h : s.fetch = .ok i) :
    romRow? s.omitted (s.read8 s.pc) = some ⟨i.form, s.read8 s.pc⟩ ∧ i.operand = operandAt s.mem (s.pc + 1) i.mode := by
  obtain ⟨r, hr, hi⟩ := State.fetch_ok.mp h
  obtain ⟨hf, ho⟩ := form_operand_of_instrOf hi (operandAt_fits _ _ _)
  exact ⟨by rw [hr, hf, ← (romRow_some.mp hr).2.1], by rw [ho, Instr.mode, hf]⟩

/-- A fetch and the decoder on the longest instruction's bytes at PC give the same instruction. -/
theorem State.fetch_of_decode {s : State} {i : Instr} {rest : List Byte}
    (h : decode s.omitted (Memory.readBytes s.mem s.pc 3) = .ok (i, rest)) : s.fetch = .ok i := by
  obtain ⟨b, r, w, more, hb, hr, _, _⟩ := decode_ok h
  rw [Memory.readBytes_succ] at hb
  injection hb with hb _
  rw [← hb] at hr
  have hle : r.form.mode.operandBytes ≤ 2 := by cases r.form.mode <;> simp [Mode.operandBytes]
  obtain ⟨j, rest', h1, _, h2, _⟩ := decode_readBytes (2 - r.form.mode.operandBytes) hr
  rw [show 1 + r.form.mode.operandBytes + (2 - r.form.mode.operandBytes) = 3 by omega, h] at h1
  injection h1 with h1
  injection h1 with h1 _
  exact State.fetch_ok.mpr ⟨r, hr, h1 ▸ h2⟩

/-- When there is no instruction to fetch. -/
theorem State.fetch_error {s : State} (h : romRow? s.omitted (s.read8 s.pc) = none) :
    s.fetch = .error (.unknownOpcode (s.read8 s.pc)) := by
  simp [State.fetch, h]

end Sys2Proof.Machine
end

