-- ==== Sys2Proof/Laws/Cycle.lean ====
section
/-!
SUPPORT. Steps and runs: what exec, a dispatcher step and a step of the machine can do, said once (40_pipeline.md R100, R118;
60_exceptions.md R232 to R241).
-/

namespace Sys2Proof.Machine

/-- Every instruction completes. -/
theorem exec_next (i : Instr) (s : State) : ∃ t, exec i s = .next t := by cases i <;> exact ⟨_, rfl⟩

/-- No instruction reads the debug controller. -/
theorem exec_setDbg (i : Instr) (s : State) (d : Debugger) :
    exec i (s.setDbg d) = andThen (exec i s) fun t => t.setDbg d := by cases i <;> rfl

/-- No instruction writes the debug controller. -/
theorem exec_dbg {i : Instr} {s t : State} (h : exec i s = .next t) : t.dbg = s.dbg := by
  cases i <;> injection h with h <;> subst h <;> rfl

/-- Every dispatcher step completes. -/
theorem dispatch_next (s : State) : ∃ t, s.dispatch = .next t := by
  unfold State.dispatch
  split
  · exact ⟨_, rfl⟩
  · split
    · exact exec_next _ _
    · exact ⟨_, rfl⟩

/-- The dispatcher on a running core with an instruction at PC. -/
theorem dispatch_fetched {s : State} {i : Instr} (h : s.run = .running) (hf : s.fetch = .ok i) :
    s.dispatch = exec i s := by
  simp [State.dispatch, h, hf]

/-- The dispatcher on a running core with no instruction at PC. -/
theorem dispatch_unknown {s : State} (h : s.run = .running) (hr : romRow? s.omitted (s.read8 s.pc) = none) :
    s.dispatch = .next (s.halt (.unknownOpcode (s.read8 s.pc))) := by
  simp [State.dispatch, h, State.fetch_error hr]

/-- The dispatcher on a halted core (40_pipeline.md R118). -/
theorem dispatch_halted {s : State} {r : HaltReason} (h : s.run = .halted r) : s.dispatch = .next s := by
  simp [State.dispatch, h]

/-- Everything a dispatcher step can be. -/
theorem dispatch_cases {s t : State} (h : s.dispatch = .next t) :
    (t = s ∧ s.run ≠ .running) ∨
    (s.run = .running ∧ ∃ i, s.fetch = .ok i ∧ exec i s = .next t) ∨
    (s.run = .running ∧ (∃ e, s.fetch = .error e) ∧ t = s.halt (.unknownOpcode (s.read8 s.pc))) := by
  unfold State.dispatch at h
  split at h
  · rename_i hr
    injection h with h
    exact .inl ⟨h.symm, by rw [hr]; exact fun e => by cases e⟩
  · rename_i hr
    split at h
    · rename_i i hf
      exact .inr (.inl ⟨hr, i, hf, h⟩)
    · rename_i e hf
      injection h with h
      exact .inr (.inr ⟨hr, ⟨e, hf⟩, h.symm⟩)

/-- A dispatcher step does not read the debug controller. -/
theorem dispatch_setDbg (s : State) (d : Debugger) :
    (s.setDbg d).dispatch = andThen s.dispatch fun t => t.setDbg d := by
  have hf : (s.setDbg d).fetch = s.fetch := rfl
  unfold State.dispatch
  rw [State.setDbg_run, hf]
  split
  · rfl
  · split
    · exact exec_setDbg _ _ _
    · rfl

/-- A dispatcher step does not write the debug controller. -/
theorem dispatch_dbg {s t : State} (h : s.dispatch = .next t) : t.dbg = s.dbg := by
  rcases dispatch_cases h with ⟨rfl, _⟩ | ⟨_, i, _, h⟩ | ⟨_, _, rfl⟩
  · rfl
  · exact exec_dbg h
  · rfl

/-- After a dispatcher step that leaves the core running the controller stays where it is. -/
theorem settle_running {t : State} (h : t.run = .running) : t.settle = t := by simp [State.settle, State.isHalted, h]

/-- After a dispatcher step that halts the core the controller goes where a halt takes it. -/
theorem settle_halted {t : State} {r : HaltReason} (h : t.run = .halted r) :
    t.settle = t.setController t.dbg.atHalt := by simp [State.settle, State.isHalted, h]

theorem sameCpu_settle (s : State) : s.sameCpu s.settle := by
  unfold State.settle
  split <;> rfl

theorem sameCpu_trans {s t u : State} (h : s.sameCpu t) (k : t.sameCpu u) : s.sameCpu u := by
  unfold State.sameCpu at *
  rw [k, h]
  rfl

/-- A step that runs freely is the dispatcher step, with the controller's answer to a halt. -/
theorem step_free {s : State} (hc : s.dbg.controller = .continuousRun) (hf : s.dbg.debugFlag = false) :
    step s = andThen s.dispatch State.settle := by
  simp [step, State.cycle, hc, hf]

/-- A step of a paused controller with a command waiting. -/
theorem step_paused {s : State} {line : Text} {later : List Text} (hc : s.dbg.controller = .pausedInteractive)
    (hl : s.dbg.commands = line :: later) :
    step s = .next (s.setDbg (Debugger.pausedCommand { s.dbg with commands := later } line)) := by
  simp [step, State.cycle, hc, Debugger.readCommand, hl]

/-- A step of a controller in its terminal inspection state with a command waiting. -/
theorem step_inspection {s : State} {line : Text} {later : List Text} (hc : s.dbg.controller = .terminalInspection)
    (hl : s.dbg.commands = line :: later) :
    step s = .next (s.setDbg (Debugger.inspectionCommand { s.dbg with commands := later } line)) := by
  simp [step, State.cycle, hc, Debugger.readCommand, hl]

/-- Reading a command keeps the mode, whatever the command. -/
theorem pausedCommand_mode (d : Debugger) (line : Text) : (d.pausedCommand line).mode = d.mode := by
  unfold Debugger.pausedCommand
  split <;> rfl

theorem inspectionCommand_mode (d : Debugger) (line : Text) : (d.inspectionCommand line).mode = d.mode := by
  unfold Debugger.inspectionCommand
  split
  · rfl
  · split <;> rfl

/-- A run of one step more. -/
theorem run_succ {n : Nat} {s u : State} (h : step s = .next u) : core.run (n + 1) s = core.run n u := by
  have hs : core.step s = .next u := h
  simp only [Host.Core.run, hs]

end Sys2Proof.Machine
end

