-- ==== Sys2Proof/Laws/PerInstr.lean ====
section
/-!
SUPPORT. The family RomRow, one lemma per instruction: the instruction is what its own row of the opcode ROM and its operand
stand for, and the ROM gives that row's opcode in both directions (30_encoding.md R66, R68).
-/

namespace Sys2Proof.Laws.RomRow

/-- An instruction is the one its (mnemonic, mode) pair and operand stand for, and the row of that pair is found by its
opcode. -/
def Statement (i : Instr) : Prop :=
  instrOf? i.form i.operand = some i ∧
  opcodeOf? i.form = some i.opcode ∧
  romRow? [] i.opcode = some ⟨i.form, i.opcode⟩
theorem adcImm (v : Byte) : Statement (.adcImm v) := ⟨instrOf_form _, rfl, rfl⟩
theorem adcAbs (addr : Word) : Statement (.adcAbs addr) := ⟨instrOf_form _, rfl, rfl⟩
theorem adcAbsX (addr : Word) : Statement (.adcAbsX addr) := ⟨instrOf_form _, rfl, rfl⟩
theorem sbcImm (v : Byte) : Statement (.sbcImm v) := ⟨instrOf_form _, rfl, rfl⟩
theorem sbcAbs (addr : Word) : Statement (.sbcAbs addr) := ⟨instrOf_form _, rfl, rfl⟩
theorem sbcAbsX (addr : Word) : Statement (.sbcAbsX addr) := ⟨instrOf_form _, rfl, rfl⟩
theorem andImm (v : Byte) : Statement (.andImm v) := ⟨instrOf_form _, rfl, rfl⟩
theorem andAbs (addr : Word) : Statement (.andAbs addr) := ⟨instrOf_form _, rfl, rfl⟩
theorem andAbsX (addr : Word) : Statement (.andAbsX addr) := ⟨instrOf_form _, rfl, rfl⟩
theorem eorImm (v : Byte) : Statement (.eorImm v) := ⟨instrOf_form _, rfl, rfl⟩
theorem eorAbs (addr : Word) : Statement (.eorAbs addr) := ⟨instrOf_form _, rfl, rfl⟩
theorem eorAbsX (addr : Word) : Statement (.eorAbsX addr) := ⟨instrOf_form _, rfl, rfl⟩
theorem oraImm (v : Byte) : Statement (.oraImm v) := ⟨instrOf_form _, rfl, rfl⟩
theorem oraAbs (addr : Word) : Statement (.oraAbs addr) := ⟨instrOf_form _, rfl, rfl⟩
theorem oraAbsX (addr : Word) : Statement (.oraAbsX addr) := ⟨instrOf_form _, rfl, rfl⟩
theorem asl : Statement .asl := ⟨instrOf_form _, rfl, rfl⟩
theorem lsr : Statement .lsr := ⟨instrOf_form _, rfl, rfl⟩
theorem rol : Statement .rol := ⟨instrOf_form _, rfl, rfl⟩
theorem ror : Statement .ror := ⟨instrOf_form _, rfl, rfl⟩
theorem cmpImm (v : Byte) : Statement (.cmpImm v) := ⟨instrOf_form _, rfl, rfl⟩
theorem cmpAbs (addr : Word) : Statement (.cmpAbs addr) := ⟨instrOf_form _, rfl, rfl⟩
theorem cmpAbsX (addr : Word) : Statement (.cmpAbsX addr) := ⟨instrOf_form _, rfl, rfl⟩
theorem ldaImm (v : Byte) : Statement (.ldaImm v) := ⟨instrOf_form _, rfl, rfl⟩
theorem ldaAbs (addr : Word) : Statement (.ldaAbs addr) := ⟨instrOf_form _, rfl, rfl⟩
theorem ldaAbsX (addr : Word) : Statement (.ldaAbsX addr) := ⟨instrOf_form _, rfl, rfl⟩
theorem ldxImm (v : Byte) : Statement (.ldxImm v) := ⟨instrOf_form _, rfl, rfl⟩
theorem ldxAbs (addr : Word) : Statement (.ldxAbs addr) := ⟨instrOf_form _, rfl, rfl⟩
theorem staAbs (addr : Word) : Statement (.staAbs addr) := ⟨instrOf_form _, rfl, rfl⟩
theorem staAbsX (addr : Word) : Statement (.staAbsX addr) := ⟨instrOf_form _, rfl, rfl⟩
theorem stxAbs (addr : Word) : Statement (.stxAbs addr) := ⟨instrOf_form _, rfl, rfl⟩
theorem inx : Statement .inx := ⟨instrOf_form _, rfl, rfl⟩
theorem dex : Statement .dex := ⟨instrOf_form _, rfl, rfl⟩
theorem tax : Statement .tax := ⟨instrOf_form _, rfl, rfl⟩
theorem txa : Statement .txa := ⟨instrOf_form _, rfl, rfl⟩
theorem clc : Statement .clc := ⟨instrOf_form _, rfl, rfl⟩
theorem sec : Statement .sec := ⟨instrOf_form _, rfl, rfl⟩
theorem bcc (disp : Byte) : Statement (.bcc disp) := ⟨instrOf_form _, rfl, rfl⟩
theorem bcs (disp : Byte) : Statement (.bcs disp) := ⟨instrOf_form _, rfl, rfl⟩
theorem beq (disp : Byte) : Statement (.beq disp) := ⟨instrOf_form _, rfl, rfl⟩
theorem bne (disp : Byte) : Statement (.bne disp) := ⟨instrOf_form _, rfl, rfl⟩
theorem bmi (disp : Byte) : Statement (.bmi disp) := ⟨instrOf_form _, rfl, rfl⟩
theorem bpl (disp : Byte) : Statement (.bpl disp) := ⟨instrOf_form _, rfl, rfl⟩
theorem jmp (addr : Word) : Statement (.jmp addr) := ⟨instrOf_form _, rfl, rfl⟩
theorem brk : Statement .brk := ⟨instrOf_form _, rfl, rfl⟩

end Sys2Proof.Laws.RomRow
end

