-- ==== Sys2Proof/Laws/Text.lean ====
section
/-!
SUPPORT. Assembler and decoder text: the hexadecimal digits, the mnemonics and the operand grammars read back what the
decoder writes, and what the encoder does on one line is said once (30_encoding.md R72 to R76, R79, R80).
-/

namespace Sys2Proof.Machine

theorem hexVal_hexChar : ∀ n < 16, hexVal? (hexChar n) = some n := by decide

theorem isBlank_hexChar : ∀ n < 16, isBlank (hexChar n) = false := by decide

/-- The two digits of a byte read back. -/
theorem hexByte_text (b : Byte) : hexByte? (hexChar (b.toNat / 16)) (hexChar (b.toNat % 16)) = some b := by
  have h := b.isLt
  rw [hexByte?, hexVal_hexChar _ (by omega), hexVal_hexChar _ (by omega)]
  simp only [Option.some.injEq]
  apply BitVec.eq_of_toNat_eq
  simp
  omega

/-- The four digits of a word read back. -/
theorem hexWord_text (w : Word) :
    hexWord? (hexChar ((highByte w).toNat / 16)) (hexChar ((highByte w).toNat % 16))
      (hexChar ((lowByte w).toNat / 16)) (hexChar ((lowByte w).toNat % 16)) = some w := by
  rw [hexWord?, hexByte_text, hexByte_text]
  simp

/-- A mnemonic's text reads back. -/
theorem mnemonicOf_text (m : Mnemonic) : mnemonicOf? (mnemonicText m) = some m := by
  cases m <;> rfl

theorem mnemonicText_noBlank (m : Mnemonic) : ∀ c ∈ mnemonicText m, isBlank c = false := by
  cases m <;> simp [mnemonicText, isBlank]

theorem mnemonicText_ne (m : Mnemonic) : mnemonicText m ≠ [] := by cases m <;> simp [mnemonicText]

theorem byteText_noBlank (b : Byte) : ∀ c ∈ byteText b, isBlank c = false := by
  intro c hc
  have h := b.isLt
  simp [byteText] at hc
  rcases hc with rfl | rfl
  · exact isBlank_hexChar _ (by omega)
  · exact isBlank_hexChar _ (by omega)

theorem operandText_noBlank (m : Mode) (w : Word) : ∀ c ∈ operandText m w, isBlank c = false := by
  have hd : isBlank '$' = false ∧ isBlank '#' = false ∧ isBlank 'A' = false ∧ isBlank ',' = false ∧ isBlank 'X' = false :=
    ⟨rfl, rfl, rfl, rfl, rfl⟩
  intro c hc
  have hb := fun b => byteText_noBlank b c
  cases m <;> simp [operandText, wordText] at hc <;> aesop

/-- An operand's text reads back (30_encoding.md R73, R79). -/
theorem parseOperand_text {m : Mode} {w : Word} (h : m.fits w) : parseOperand (operandText m w) = some (m, w) := by
  obtain ⟨h1, h0⟩ := h
  cases m
  · rw [h0 rfl]; rfl
  · rw [h0 rfl]; rfl
  · show (hexByte? _ _).map _ = _
    rw [hexByte_text]
    simp [setWidth_lowByte (h1 rfl)]
  · show (hexByte? _ _).map _ = _
    rw [hexByte_text]
    simp [setWidth_lowByte (h1 rfl)]
  · show (hexWord? _ _ _ _).map _ = _
    rw [hexWord_text]
    simp
  · show (hexWord? _ _ _ _).map _ = _
    rw [hexWord_text]
    simp

/-- An operand that was read fits the mode it selects (30_encoding.md R73). -/
theorem parseOperand_fits {t : Text} {m : Mode} {w : Word} (h : parseOperand t = some (m, w)) : m.fits w := by
  unfold parseOperand at h
  split at h <;> simp at h
  · obtain ⟨rfl, rfl⟩ := h
    simp [Mode.fits, Mode.operandBytes]
  · obtain ⟨rfl, rfl⟩ := h
    simp [Mode.fits, Mode.operandBytes]
  · obtain ⟨b, _, rfl, rfl⟩ := h
    simp [Mode.fits, Mode.operandBytes, highByte_setWidth]
  · obtain ⟨b, _, rfl, rfl⟩ := h
    simp [Mode.fits, Mode.operandBytes, highByte_setWidth]
  · obtain ⟨_, rfl⟩ := h
    simp [Mode.fits, Mode.operandBytes]
  · obtain ⟨_, rfl⟩ := h
    simp [Mode.fits, Mode.operandBytes]

/-- A text that begins and ends without a blank is not trimmed. -/
theorem trimBlanks_eq {t : Text} (h : ∀ c, t.head? = some c → isBlank c = false)
    (h' : ∀ c, t.getLast? = some c → isBlank c = false) : trimBlanks t = t := by
  have key : ∀ u : Text, (∀ c, u.head? = some c → isBlank c = false) → u.dropWhile isBlank = u := by
    intro u hu
    cases u with
    | nil => rfl
    | cons c r => simp [List.dropWhile, hu c rfl]
  rw [trimBlanks, key t h, key t.reverse (by simpa using h'), List.reverse_reverse]

/-- A line of one word. -/
theorem splitLine_one {t : Text} (h : ∀ c ∈ t, isBlank c = false) : splitLine t = (t, []) := by
  have ht : trimBlanks t = t :=
    trimBlanks_eq (fun c hc => h c (List.mem_of_head? hc)) fun c hc => h c (List.mem_of_getLast? hc)
  have e1 : t.takeWhile (fun c => !isBlank c) = t := List.takeWhile_eq_self_iff.mpr fun c hc => by simp [h c hc]
  have e2 : t.dropWhile (fun c => !isBlank c) = [] := List.dropWhile_eq_nil_iff.mpr fun c hc => by simp [h c hc]
  simp only [splitLine, ht, e1, e2]
  rfl

/-- A line of a word, one space and a word. -/
theorem splitLine_two {t u : Text} (ht : ∀ c ∈ t, isBlank c = false) (hu : ∀ c ∈ u, isBlank c = false) (hn : t ≠ [])
    (hm : u ≠ []) : splitLine (t ++ ' ' :: u) = (t, u) := by
  have hl : (t ++ ' ' :: u).getLast? = u.getLast? := by
    cases u with
    | nil => exact absurd rfl hm
    | cons d r => simp [List.getLast?_append, List.getLast?_cons]
  have htrim : trimBlanks (t ++ ' ' :: u) = t ++ ' ' :: u := by
    refine trimBlanks_eq (fun c hc => ?_) fun c hc => hu c (List.mem_of_getLast? (hl ▸ hc))
    cases t with
    | nil => exact absurd rfl hn
    | cons d r => exact ht c (by simp at hc; simp [hc])
  have e1 : (t ++ ' ' :: u).takeWhile (fun c => !isBlank c) = t := by
    rw [List.takeWhile_append_of_pos (by simpa using ht)]
    simp [List.takeWhile, isBlank]
  have e2 : (t ++ ' ' :: u).dropWhile (fun c => !isBlank c) = ' ' :: u := by
    rw [List.dropWhile_append_of_pos (by simpa using ht)]
    simp [List.dropWhile, isBlank]
  have e3 : (' ' :: u).dropWhile isBlank = u := by
    cases u with
    | nil => exact absurd rfl hm
    | cons d r => simp [List.dropWhile, isBlank, show (d == ' ' || d == '\t') = false from hu d (by simp)]
  simp only [splitLine, htrim, e1, e2, e3]

/-- A rendered line reads back as its pair and operand (30_encoding.md R72, R80). -/
theorem parseLine_text {f : Form} {w : Word} (h : f.mode.fits w) : parseLine (lineText f w) = some (f, w) := by
  have hs : splitLine (lineText f w) = (mnemonicText f.mnemonic, operandText f.mode w) := by
    unfold lineText
    split
    · rename_i h
      rw [h]
      exact splitLine_one (mnemonicText_noBlank _)
    · rename_i h
      exact splitLine_two (mnemonicText_noBlank _) (operandText_noBlank _ _) (mnemonicText_ne _) h
  simp [parseLine, hs, mnemonicOf_text, parseOperand_text h]

/-- An operand that a line reads as fits the mode of its pair. -/
theorem parseLine_fits {line : Text} {f : Form} {w : Word} (h : parseLine line = some (f, w)) : f.mode.fits w := by
  unfold parseLine at h
  split at h
  · rename_i hm ho
    injection h with h
    injection h with h1 h2
    subst h1 h2
    exact parseOperand_fits ho
  · cases h

/-- Everything the encoder does on one line: it writes the encoding of the instruction the line reads as and moves the cursor
past it, or it answers MalformedOperand (30_encoding.md R74 to R76). -/
theorem assembleLine_spec (omitted : List Form) (m : Memory) (cursor : Word) (line : Text) :
    (∃ i : Instr, parseLine line = some (i.form, i.operand) ∧ i.wellFormed omitted = true ∧
      assembleLine omitted m cursor line =
        .ok (Memory.writeBytes m cursor (encode i), cursor + BitVec.ofNat 16 (encode i).length)) ∨
    ((¬∃ i : Instr, parseLine line = some (i.form, i.operand) ∧ i.wellFormed omitted = true) ∧
      assembleLine omitted m cursor line = .error (.malformedOperand line)) := by
  by_cases h : ∃ i : Instr, parseLine line = some (i.form, i.operand) ∧ i.wellFormed omitted = true
  · obtain ⟨i, hp, hw⟩ := h
    refine .inl ⟨i, hp, hw, ?_⟩
    have ho : omitted.contains i.form = false := by simpa [Instr.wellFormed] using hw
    have hl : (encode i).length = i.form.mode.operandBytes + 1 := by cases i <;> rfl
    have he : encodeForm? i.form i.operand = some (encode i) := by rw [encode, encodeForm?, opcodeOf_form]; rfl
    simp only [assembleLine, hp, ho, he, hl, ← offset_succ]
    rfl
  · refine .inr ⟨h, ?_⟩
    unfold assembleLine
    split
    · rfl
    · rename_i f w hp
      split
      · rfl
      · rename_i ho
        split
        · rfl
        · rename_i bytes he
          obtain ⟨op, hop, _⟩ := Option.map_eq_some_iff.mp he
          obtain ⟨r, hr, _⟩ := Option.map_eq_some_iff.mp hop
          obtain ⟨i, hi, hf⟩ := instr_of_row (List.mem_of_find?_eq_some hr) w
          have hrf : r.form = f := by simpa using List.find?_some hr
          rw [hrf] at hi hf
          obtain ⟨_, hw⟩ := form_operand_of_instrOf hi (parseLine_fits hp)
          exact absurd ⟨i, by rw [hf, hw]; exact hp, by simpa [Instr.wellFormed, hf] using ho⟩ h

end Sys2Proof.Machine
end

