-- ==== Sys2Proof/Tests/Slice0.lean ====
section
/-!
SUPPORT. Tests and witnesses. The expected values are the spec's: the encodings of opcode_table.json and 30_encoding.md R66,
and the vectors S1 to S9 and V1 to V150 of 95_test_vectors.md, whose numbers the comments give. A test runs one step. The
witnesses show for each statement with hypotheses a state and operands that meet them together.
-/

namespace Sys2Proof.Tests

open Sys2Proof Sys2Proof.Machine Sys2Proof.Claims

/-! ## Helpers -/

/-- A byte sequence is exactly the instruction. -/
abbrev decodesTo (bytes : List Byte) (i : Instr) : Prop :=
  (match decode [] bytes with
    | .ok (j, rest) => j == i && rest == []
    | .error _ => false) = true

/-- A program at 0x8000 with A, X and P given. -/
def start (bytes : List Byte) (a x p : Byte) : State := { State.reset.loadBytes bytes with a := a, x := x, p := p }

/-- The same with one more byte in memory. -/
def startWith (bytes : List Byte) (a x p : Byte) (addr : Word) (v : Byte) : State := (start bytes a x p).write8 addr v

/-- The same at another address. -/
def startAt (pc : Word) (bytes : List Byte) (a x p : Byte) : State :=
  { State.reset with mem := Memory.writeBytes [] pc bytes, pc := pc, a := a, x := x, p := p }

/-- The state after one step; the step of every state here is a next state. -/
def after (s : State) : State :=
  match step s with
  | .next t => t
  | .fault _ => s
  | .refused _ => s

/-- A, X, P and PC after one step. -/
def axpp (s : State) : Byte × Byte × Byte × Word := ((after s).a, (after s).x, (after s).p, (after s).pc)

/-! ## WellFormed -/

/-- 30_encoding.md R67: a row the implementation lacks is refused by the check, the same row is accepted where it is there. -/
theorem test_wellFormed_refuses_an_omitted_row :
    Instr.wellFormed [⟨.adc, .absX⟩] (.adcAbsX 0x1234) = false ∧ Instr.wellFormed [] (.adcAbsX 0x1234) = true := by decide

/-! ## Decoding: every row of the table, the word written out from its encoding -/

theorem test_decode_arithmetic :
    decodesTo [0b01101001, 0x9C] (.adcImm 0x9C) ∧
    decodesTo [0b01101101, 0x34, 0x92] (.adcAbs 0x9234) ∧
    decodesTo [0b01111101, 0x34, 0x92] (.adcAbsX 0x9234) ∧
    decodesTo [0b11101001, 0x9C] (.sbcImm 0x9C) ∧
    decodesTo [0b11101101, 0x34, 0x92] (.sbcAbs 0x9234) ∧
    decodesTo [0b11111101, 0x34, 0x92] (.sbcAbsX 0x9234) := by decide

theorem test_decode_logical :
    decodesTo [0b00101001, 0x9C] (.andImm 0x9C) ∧
    decodesTo [0b00101101, 0x34, 0x92] (.andAbs 0x9234) ∧
    decodesTo [0b00111101, 0x34, 0x92] (.andAbsX 0x9234) ∧
    decodesTo [0b01001001, 0x9C] (.eorImm 0x9C) ∧
    decodesTo [0b01001101, 0x34, 0x92] (.eorAbs 0x9234) ∧
    decodesTo [0b01011101, 0x34, 0x92] (.eorAbsX 0x9234) ∧
    decodesTo [0b00001001, 0x9C] (.oraImm 0x9C) ∧
    decodesTo [0b00001101, 0x34, 0x92] (.oraAbs 0x9234) ∧
    decodesTo [0b00011101, 0x34, 0x92] (.oraAbsX 0x9234) := by decide

theorem test_decode_shift :
    decodesTo [0b00001010] .asl ∧
    decodesTo [0b01001010] .lsr ∧
    decodesTo [0b00101010] .rol ∧
    decodesTo [0b01101010] .ror := by decide

theorem test_decode_compare :
    decodesTo [0b11001001, 0x9C] (.cmpImm 0x9C) ∧
    decodesTo [0b11001101, 0x34, 0x92] (.cmpAbs 0x9234) ∧
    decodesTo [0b11011101, 0x34, 0x92] (.cmpAbsX 0x9234) := by decide

theorem test_decode_load_store :
    decodesTo [0b10101001, 0x9C] (.ldaImm 0x9C) ∧
    decodesTo [0b10101101, 0x34, 0x92] (.ldaAbs 0x9234) ∧
    decodesTo [0b10111101, 0x34, 0x92] (.ldaAbsX 0x9234) ∧
    decodesTo [0b10100010, 0x9C] (.ldxImm 0x9C) ∧
    decodesTo [0b10101110, 0x34, 0x92] (.ldxAbs 0x9234) ∧
    decodesTo [0b10001101, 0x34, 0x92] (.staAbs 0x9234) ∧
    decodesTo [0b10011101, 0x34, 0x92] (.staAbsX 0x9234) ∧
    decodesTo [0b10001110, 0x34, 0x92] (.stxAbs 0x9234) := by decide

theorem test_decode_register_and_flag :
    decodesTo [0b11101000] .inx ∧
    decodesTo [0b11001010] .dex ∧
    decodesTo [0b10101010] .tax ∧
    decodesTo [0b10001010] .txa ∧
    decodesTo [0b00011000] .clc ∧
    decodesTo [0b00111000] .sec := by decide

theorem test_decode_control :
    decodesTo [0b10010000, 0x9C] (.bcc 0x9C) ∧
    decodesTo [0b10110000, 0x9C] (.bcs 0x9C) ∧
    decodesTo [0b11110000, 0x9C] (.beq 0x9C) ∧
    decodesTo [0b11010000, 0x9C] (.bne 0x9C) ∧
    decodesTo [0b00110000, 0x9C] (.bmi 0x9C) ∧
    decodesTo [0b00010000, 0x9C] (.bpl 0x9C) ∧
    decodesTo [0b01001100, 0x34, 0x92] (.jmp 0x9234) ∧
    decodesTo [0b00000000] .brk := by decide

/-- A byte of no row, a row the implementation lacks, and a sequence that ends too early. -/
theorem test_decode_rejects :
    decode [] [0b00000010] = .error (.unknownOpcode 0x02) ∧
    decode [⟨.adc, .absX⟩] [0b01111101, 0x34, 0x12] = .error (.unknownOpcode 0x7D) ∧
    decode [] [0b10101101, 0x34] = .error .truncated := ⟨rfl, rfl, rfl⟩

/-- The numbering of opcode_table.json: a later byte's bits count on from the first. -/
theorem test_decodeTableWord :
    decodeTableWord 24 0x1234BD = some (.ldaAbsX 0x1234) ∧ decodeTableWord 8 0xAD = some (.ldaAbs 0) ∧
    decodeTableWord 8 0x02 = none := by decide

/-- No two rows of the ROM share an opcode or a pair, and there are 44. -/
theorem test_rom_has_no_overlap :
    opcodeRom.Pairwise (fun r q => r.opcode ≠ q.opcode ∧ r.form ≠ q.form) ∧ opcodeRom.length = 44 := by decide

/-- S5: the two lines of the source's example, encoded. -/
theorem test_encode :
    encode (.ldaImm 0x05) = [0xA9, 0x05] ∧ encode (.staAbs 0x9000) = [0x8D, 0x00, 0x90] ∧ encode .brk = [0x00] := by decide

/-! ## Memory -/

/-- The canonical form after writes in any order, and after a cell is written back to 0. -/
theorem test_memory_canonical :
    Memory.writeBytes [] 0xFFFF [0x4C, 0x00, 0x80] = [(1, 0x80), (0xFFFF, 0x4C)] ∧
    Memory.write8 (Memory.write8 [] 5 7) 5 0 = [] := by decide

/-- 20_memory.md R44: the second address wraps. -/
theorem test_read16_wraps : Memory.read16 [(0, 0x12), (0xFFFF, 0x34)] 0xFFFF = 0x1234 := by decide

/-! ## One step of each instruction. A, X, P and PC after it; flags of P are N 0x80, V 0x40, Z 0x02, C 0x01. -/

-- V12, V16
theorem test_adcImm_overflow : axpp (start [0x69, 0x01] 0x7F 0x11 0x02) = (0x80, 0x11, 0xC0, 0x8002) := by decide
theorem test_adcImm_carry : axpp (start [0x69, 0xFF] 0xFF 0x11 0x43) = (0xFF, 0x11, 0x81, 0x8002) := by decide
-- P3: FF + 01 from memory
theorem test_adcAbs : axpp (startWith [0x6D, 0x02, 0x90] 0xFF 0x01 0xFC 0x9002 0x01) = (0x00, 0x01, 0x3F, 0x8003) := by decide
-- S2 and S6 together: base 0xFFFF with X = 0xFF reads 0x00FE
theorem test_adcAbsX : axpp (startWith [0x7D, 0xFF, 0xFF] 0x50 0xFF 0x00 0x00FE 0x50) = (0xA0, 0xFF, 0xC0, 0x8003) := by decide
-- V26, V22
theorem test_sbcImm_corner : axpp (start [0xE9, 0xFF] 0x00 0x11 0x40) = (0x00, 0x11, 0x02, 0x8002) := by decide
theorem test_sbcImm_overflow : axpp (start [0xE9, 0x01] 0x80 0x11 0x83) = (0x7F, 0x11, 0x41, 0x8002) := by decide
-- V23, V20
theorem test_sbcAbs : axpp (startWith [0xED, 0x00, 0x90] 0x7F 0x01 0x01 0x9000 0xFF) = (0x80, 0x01, 0xC0, 0x8003) := by decide
theorem test_sbcAbsX : axpp (startWith [0xFD, 0x00, 0x90] 0x05 0x01 0x01 0x9001 0x03) = (0x02, 0x01, 0x01, 0x8003) := by decide
-- V30 to V36; C and V as before
theorem test_andImm : axpp (start [0x29, 0xFF] 0x80 0x11 0x43) = (0x80, 0x11, 0xC1, 0x8002) := by decide
theorem test_andAbs : axpp (startWith [0x2D, 0x00, 0x90] 0xF0 0x01 0xC1 0x9000 0x0F) = (0x00, 0x01, 0x43, 0x8003) := by decide
theorem test_andAbsX : axpp (startWith [0x3D, 0x00, 0x90] 0xFF 0x01 0x82 0x9001 0x0F) = (0x0F, 0x01, 0x00, 0x8003) := by decide
theorem test_eorImm : axpp (start [0x49, 0xFF] 0x0F 0x11 0x43) = (0xF0, 0x11, 0xC1, 0x8002) := by decide
theorem test_eorAbs : axpp (startWith [0x4D, 0x00, 0x90] 0xFF 0x01 0x80 0x9000 0xFF) = (0x00, 0x01, 0x02, 0x8003) := by decide
theorem test_eorAbsX : axpp (startWith [0x5D, 0x00, 0x90] 0x0F 0x01 0x00 0x9001 0xFF) = (0xF0, 0x01, 0x80, 0x8003) := by decide
theorem test_oraImm : axpp (start [0x09, 0x01] 0x80 0x11 0x43) = (0x81, 0x11, 0xC1, 0x8002) := by decide
theorem test_oraAbs : axpp (start [0x0D, 0x00, 0x90] 0x00 0x01 0x80) = (0x00, 0x01, 0x02, 0x8003) := by decide
theorem test_oraAbsX : axpp (startWith [0x1D, 0x00, 0x90] 0x80 0x01 0x02 0x9001 0x01) = (0x81, 0x01, 0x80, 0x8003) := by decide
-- V40, V41, V43, V44
theorem test_asl_out : axpp (start [0x0A] 0x80 0x11 0xC0) = (0x00, 0x11, 0x43, 0x8001) := by decide
theorem test_asl_sign : axpp (start [0x0A] 0x41 0x11 0x03) = (0x82, 0x11, 0x80, 0x8001) := by decide
theorem test_lsr_out : axpp (start [0x4A] 0xFF 0x11 0xC2) = (0x7F, 0x11, 0x41, 0x8001) := by decide
theorem test_lsr_zero_in : axpp (start [0x4A] 0x80 0x11 0x81) = (0x40, 0x11, 0x00, 0x8001) := by decide
-- V46, V47, V49, V50
theorem test_rol_both : axpp (start [0x2A] 0x80 0x11 0x83) = (0x01, 0x11, 0x01, 0x8001) := by decide
theorem test_rol_in : axpp (start [0x2A] 0x40 0x11 0x41) = (0x81, 0x11, 0xC0, 0x8001) := by decide
theorem test_ror_both : axpp (start [0x6A] 0x01 0x11 0x03) = (0x80, 0x11, 0x81, 0x8001) := by decide
theorem test_ror_in : axpp (start [0x6A] 0x02 0x11 0x41) = (0x81, 0x11, 0xC0, 0x8001) := by decide
-- V58, V60, V57, V55
theorem test_cmpImm_less : axpp (start [0xC9, 0xFF] 0x00 0x11 0xC3) = (0x00, 0x11, 0x40, 0x8002) := by decide
theorem test_cmpImm_greater : axpp (start [0xC9, 0x01] 0x80 0x11 0x82) = (0x80, 0x11, 0x01, 0x8002) := by decide
theorem test_cmpAbs : axpp (startWith [0xCD, 0x00, 0x90] 0x42 0x01 0x80 0x9000 0x42) = (0x42, 0x01, 0x03, 0x8003) := by decide
theorem test_cmpAbsX : axpp (startWith [0xDD, 0x00, 0x90] 0x10 0x01 0x43 0x9001 0x20) = (0x10, 0x01, 0xC0, 0x8003) := by decide
-- V66, V71, V2 (the operand bytes wrap past 0xFFFF), V1, V67, V68
theorem test_ldaImm : axpp (start [0xA9, 0x80] 0x00 0x11 0x43) = (0x80, 0x11, 0xC1, 0x8002) := by decide
theorem test_ldaAbs_unwritten : axpp (start [0xAD, 0x00, 0x40] 0x55 0x11 0x80) = (0x00, 0x11, 0x02, 0x8003) := by decide
theorem test_ldaAbs_wraps :
    axpp ((startAt 0xFFFF [0xAD, 0x34, 0x12] 0x00 0x11 0x02).write8 0x1234 0x99) = (0x99, 0x11, 0x80, 0x0002) := by decide
theorem test_ldaAbsX : axpp (startWith [0xBD, 0xFF, 0xFF] 0x00 0xFF 0x82 0x00FE 0x77) = (0x77, 0xFF, 0x00, 0x8003) := by decide
theorem test_ldxImm : axpp (start [0xA2, 0xFF] 0x11 0x00 0x43) = (0x11, 0xFF, 0xC1, 0x8002) := by decide
theorem test_ldxAbs : axpp (start [0xAE, 0x34, 0x12] 0x11 0x22 0x80) = (0x11, 0x00, 0x02, 0x8003) := by decide
-- V69, V4, V70: the byte stored, and no register or flag changed
theorem test_staAbs : axpp (start [0x8D, 0x00, 0x90] 0x05 0x11 0xC3) = (0x05, 0x11, 0xC3, 0x8003) ∧
    (after (start [0x8D, 0x00, 0x90] 0x05 0x11 0xC3)).read8 0x9000 = 0x05 := by decide
theorem test_staAbsX : (after (start [0x9D, 0xF8, 0xFF] 0x3C 0x10 0xC3)).read8 0x0008 = 0x3C ∧
    axpp (start [0x9D, 0xF8, 0xFF] 0x3C 0x10 0xC3) = (0x3C, 0x10, 0xC3, 0x8003) := by decide
theorem test_stxAbs : (after (start [0x8E, 0x34, 0x12] 0x11 0x7E 0xC3)).read8 0x1234 = 0x7E ∧
    axpp (start [0x8E, 0x34, 0x12] 0x11 0x7E 0xC3) = (0x11, 0x7E, 0xC3, 0x8003) := by decide
-- V75 to V80
theorem test_inx_wraps : axpp (start [0xE8] 0x11 0xFF 0xC1) = (0x11, 0x00, 0x43, 0x8001) := by decide
theorem test_inx_sign : axpp (start [0xE8] 0x11 0x7F 0x03) = (0x11, 0x80, 0x81, 0x8001) := by decide
theorem test_dex_wraps : axpp (start [0xCA] 0x11 0x00 0x43) = (0x11, 0xFF, 0xC1, 0x8001) := by decide
theorem test_dex_zero : axpp (start [0xCA] 0x11 0x01 0x80) = (0x11, 0x00, 0x02, 0x8001) := by decide
theorem test_tax : axpp (start [0xAA] 0x80 0x11 0x02) = (0x80, 0x80, 0x80, 0x8001) := by decide
theorem test_txa : axpp (start [0x8A] 0x11 0x00 0x80) = (0x00, 0x00, 0x02, 0x8001) := by decide
-- V85, V87
theorem test_clc : axpp (start [0x18] 0x11 0x22 0xC3) = (0x11, 0x22, 0xC2, 0x8001) := by decide
theorem test_sec : axpp (start [0x38] 0x11 0x22 0xC2) = (0x11, 0x22, 0xC3, 0x8001) := by decide
-- V90 and V91 (S4), V93, V94, V95, V96, V97, V98
theorem test_bcc_taken : (after (start [0x90, 0x05] 0 0 0x00)).pc = 0x8007 := by decide
theorem test_bcc_not_taken : (after (start [0x90, 0x05] 0 0 0x01)).pc = 0x8002 := by decide
theorem test_bcs : (after (start [0xB0, 0xFE] 0 0 0x01)).pc = 0x8000 := by decide
theorem test_beq_taken : (after (startAt 0x8010 [0xF0, 0x80] 0 0 0x02)).pc = 0x7F92 := by decide
theorem test_beq_not_taken : (after (startAt 0x8010 [0xF0, 0x80] 0 0 0xFD)).pc = 0x8012 := by decide
theorem test_bne : (after (startAt 0x8008 [0xD0, 0xFA] 0 0 0xFD)).pc = 0x8004 := by decide
theorem test_bmi : (after (startAt 0xFFFE [0x30, 0x05] 0 0 0x80)).pc = 0x0005 := by decide
theorem test_bpl : (after (startAt 0x0000 [0x10, 0xFC] 0 0 0x7F)).pc = 0xFFFE := by decide
-- V101
theorem test_jmp : (after (startAt 0xFFFF [0x4C, 0x00, 0x80] 0 0 0xC3)).pc = 0x8000 := by decide
-- V105, V107, V108: the halts; only the run status changes, and the controller of a run without debugging terminates
theorem test_brk : after (startAt 0x8005 [0x00] 0x11 0x22 0xC3) =
    ((startAt 0x8005 [0x00] 0x11 0x22 0xC3).halt .brk).setController .terminated := by decide
theorem test_unknown_opcode : after (start [0xFF] 0x11 0x22 0xC3) =
    ((start [0xFF] 0x11 0x22 0xC3).halt (.unknownOpcode 0xFF)).setController .terminated := by decide
theorem test_omitted_row_halts :
    (after { start [0x7D, 0x34, 0x12] 0 0 0 with omitted := [⟨.adc, .absX⟩] }).run = .halted (.unknownOpcode 0x7D) := by decide

/-! ## Reset -/

-- S9; 10_state.md R35
theorem test_reset : State.reset.pc = 0x8000 ∧ State.reset.run = .running ∧ State.reset.mem = [] := by decide

/-- withFetchWord places an instruction so that the very next step runs it. -/
theorem test_withFetchWord : (after (State.reset.withFetchWord 16 0x80A9)).a = 0x80 := by decide

/-! ## Assembler text and decoder text -/

/-- What the encoder wrote, `n` bytes from the cursor, and the next cursor. -/
def assembled (line : Text) (cursor : Word) (n : Nat) : Option (List Byte × Word) :=
  match assembleLine [] [] cursor line with
  | .ok (m, next) => some (Memory.readBytes m cursor n, next)
  | .error _ => none

-- V110, V112, V113, V114
theorem test_assemble :
    assembled ['l', 'd', 'a', ' ', '#', '$', '0', '5'] 0x8000 2 = some ([0xA9, 0x05], 0x8002) ∧
    assembled ['L', 'D', 'A', ' ', '$', '1', '2', '3', '4', ',', 'X'] 0x8000 3 = some ([0xBD, 0x34, 0x12], 0x8003) ∧
    assembled ['a', 's', 'l', ' ', 'A'] 0x8000 1 = some ([0x0A], 0x8001) ∧
    assembled [' ', 'b', 'n', 'e', ' ', ' ', '$', 'f', 'A'] 0x8000 2 = some ([0xD0, 0xFA], 0x8002) := by decide
-- V115, V116: the cursor wraps
theorem test_assemble_wraps :
    assembled ['i', 'n', 'x'] 0xFFFF 1 = some ([0xE8], 0x0000) ∧
    assembled ['j', 'm', 'p', ' ', '$', '8', '0', '0', '0'] 0xFFFE 3 = some ([0x4C, 0x00, 0x80], 0x0001) := by decide
-- V117 to V121
theorem test_assemble_rejects :
    assembled ['l', 'd', 'a', ' ', '$', '1', '0'] 0x8000 0 = none ∧
    assembled ['s', 't', 'x', ' ', '$', '1', '2', '3', '4', ',', 'X'] 0x8000 0 = none ∧
    assembled ['a', 's', 'l', ' ', '$', '1', '2', '3', '4'] 0x8000 0 = none ∧
    assembled ['n', 'o', 'p'] 0x8000 0 = none ∧
    assembled ['l', 'd', 'a', ' ', '#', '$', '5'] 0x8000 0 = none := by decide
-- V126, V127, V128, V129
theorem test_disassemble :
    disassemble [] (Memory.writeBytes [] 0x8002 [0x8D, 0x00, 0x90]) 0x8002 =
      (['s', 't', 'a', ' ', '$', '9', '0', '0', '0'], 0x8005) ∧
    disassemble [] (Memory.writeBytes [] 0x8000 [0xBD, 0x34, 0x12]) 0x8000 =
      (['l', 'd', 'a', ' ', '$', '1', '2', '3', '4', ',', 'X'], 0x8003) ∧
    disassemble [] (Memory.writeBytes [] 0x8000 [0x6A]) 0x8000 = (['r', 'o', 'r', ' ', 'A'], 0x8001) ∧
    disassemble [] (Memory.writeBytes [] 0x8000 [0x90, 0xFB]) 0x8000 = (['b', 'c', 'c', ' ', '$', 'F', 'B'], 0x8002) := by
  decide
-- V132, V133
theorem test_disassemble_wraps :
    disassemble [] (Memory.writeBytes [] 0xFFFF [0xAD, 0x34, 0x12]) 0xFFFF =
      (['l', 'd', 'a', ' ', '$', '1', '2', '3', '4'], 0x0002) ∧
    disassemble [] (Memory.writeBytes [] 0xFFFF [0xFF]) 0xFFFF = (['?', '?', '?'], 0x0000) := by decide
-- S5 by the second loader: a blank line ends the load
theorem test_loadAssembly :
    (match State.reset.loadAssembly [['l', 'd', 'a', ' ', '#', '$', '0', '5'],
        ['s', 't', 'a', ' ', '$', '9', '0', '0', '0'], [], ['x']] with
      | .ok s => Memory.readBytes s.mem 0x8000 6
      | .error _ => []) = [0xA9, 0x05, 0x8D, 0x00, 0x90, 0x00] := by decide

/-! ## The debug controller, one step each -/

/-- The start of a debugged program, paused, with one command line sent. -/
def paused (line : Text) : State :=
  let s := (State.construct { Config.default with mode := .debug }).loadBytes [0xA2, 0x05, 0xA9, 0x00, 0x18]
  s.setDbg { s.dbg with controller := .pausedInteractive, commands := [line] }

-- S7 and V141: the command read, and one of its three instructions run
theorem test_step_command : (after (paused ['s', 't', 'e', 'p', ' ', '3'])).dbg.controller = .singleStep 3 ∧
    (after (after (paused ['s', 't', 'e', 'p', ' ', '3']))).dbg.controller = .singleStep 2 ∧
    (after (after (paused ['s', 't', 'e', 'p', ' ', '3']))).pc = 0x8002 := by decide
-- V142; 60_exceptions.md R234: the count is 1 when absent, and decimal
theorem test_step_default : (after (paused ['s', 't', 'e', 'p'])).dbg.controller = .singleStep 1 ∧
    (after (paused ['s', 't', 'e', 'p', ' ', '1', '2'])).dbg.controller = .singleStep 12 ∧
    (after (paused ['s', 't', 'e', 'p', ' ', 'A'])).dbg.reply =
      some (.invalidCommandArgument ['s', 't', 'e', 'p', ' ', 'A']) := by decide
-- V144, V145
theorem test_end_and_exit : (after (paused ['e', 'n', 'd'])).dbg.controller = .continuousRun ∧
    (after (paused ['e', 'n', 'd'])).dbg.debugFlag = false ∧
    (after (paused ['e', 'x', 'i', 't'])).dbg.controller = .terminated ∧
    (after (paused ['e', 'x', 'i', 't'])).run = .running := by decide
-- V146, V147, V150
theorem test_views : (after (paused ['m', ' ', '9', '0', '0', '0'])).dbg.memCursor = 0x9000 ∧
    (after (paused ['i', ' ', '1', 'F', 'f', 'f', 'F'])).dbg.instrCursor = 0xFFFF ∧
    (after (paused ['m', ' ', 'z', 'z'])).dbg.reply = some (.invalidCommandArgument ['m', ' ', 'z', 'z']) ∧
    (after (paused ['f', 'o', 'o'])).dbg.reply = some .view := by decide
-- V148, V149
theorem test_inspection : (after ((paused ['s', 't', 'e', 'p']).setController .terminalInspection)).dbg.controller =
      .terminalInspection ∧
    (after ((paused ['e', 'x', 'i', 't']).setController .terminalInspection)).dbg.controller = .terminated := by decide

/-! ## Witnesses: for each statement with hypotheses, data that meet them -/

/-- Immediate, accumulator and indexed instructions at 0x8000, for the witnesses. -/
def free (bytes : List Byte) : State := start bytes 0xE8 0xFF 0x03

theorem free_runsFreely (bytes : List Byte) : runsFreely (free bytes) := ⟨rfl, rfl, rfl⟩

theorem witness_DecodeOfEncodeIsTheInstruction : (Instr.ldaAbs 0xFFFF).wellFormed [⟨.adc, .absX⟩] = true := by decide

theorem witness_EncodeOfDecodeIsTheBytes :
    decode [⟨.adc, .absX⟩] [0xAD, 0xFF, 0xFF, 0x02] = .ok (.ldaAbs 0xFFFF, [0x02]) := rfl

theorem witness_RomDirectionsAreMutuallyInverse : (⟨.adc, .imm⟩ : Form) ∉ ([⟨.adc, .absX⟩] : List Form) := by decide

theorem witness_CanonicalMemoriesReadingAlikeAreEqual :
    Memory.wf [(0, 0x01), (0xFFFF, 0xFF)] ∧
    ∀ a : Word, Memory.read8 (Memory.write8 [(0xFFFF, 0xFF)] 0 0x01) a = Memory.read8 [(0, 0x01), (0xFFFF, 0xFF)] a :=
  ⟨by decide, fun _ => rfl⟩

/-- The second clause is about the one address 0xFFFF, where the first clause holds too and says the same. -/
theorem witness_Read16IsLittleEndianAndWraps : (0xFFFF : Word) = 0xFFFF ∧ (0xFFFF : Word) + 1 = 0 := by decide

/-- A stream that fills all of memory is the longest one, and an empty one the shortest. -/
theorem witness_LoadPlacesEachByteFrom8000Upward :
    (List.replicate 65536 (0xFF : Byte)).length ≤ 65536 ∧ ([] : List Byte).length ≤ 65536 :=
  ⟨by rw [List.length_replicate], by decide⟩

theorem witness_FetchedOperandsComeFromTheBytesAfterTheOpcode :
    (free [0xE8]).fetch = .ok .inx ∧ (free [0x0A]).fetch = .ok .asl ∧
    (free [0xA9, 0xFF]).fetch = .ok (.ldaImm 0xFF) ∧ (free [0x90, 0x80]).fetch = .ok (.bcc 0x80) ∧
    (free [0xAD, 0xFF, 0xFF]).fetch = .ok (.ldaAbs 0xFFFF) ∧ (free [0xBD, 0x34, 0x12]).fetch = .ok (.ldaAbsX 0x1234) ∧
    (startAt 0xFFFF [0xAD, 0x34, 0x12] 0 0 0).fetch = .ok (.ldaAbs 0x1234) := ⟨rfl, rfl, rfl, rfl, rfl, rfl, rfl⟩

theorem witness_AbsoluteIndexedAddressAddsXAndWraps :
    (free [0xBD, 0xFF, 0xFF]).fetch = .ok (.ldaAbsX 0xFFFF) ∧ (Instr.ldaAbsX 0xFFFF).mode = .absX ∧
    (free [0xBD, 0xFF, 0xFF]).x = 0xFF := ⟨rfl, rfl, rfl⟩

/-- The displacement's two ends, -128 and 127. -/
theorem witness_RelativeOperandIsASignedDisplacement :
    (free [0x90, 0x80]).fetch = .ok (.bcc 0x80) ∧ (Instr.bcc 0x80).mode = .rel ∧
    (free [0x10, 0x7F]).fetch = .ok (.bpl 0x7F) ∧ (Instr.bpl 0x7F).mode = .rel := ⟨rfl, rfl, rfl, rfl⟩

/-- One instruction of each length. -/
theorem witness_SequentialInstructionsMovePcPastThemselves :
    (∃ t, exec .inx (free []) = .next t) ∧ (∃ t, exec (.adcImm 0xFF) (free []) = .next t) ∧
    (∃ t, exec (.staAbsX 0xFFFF) (free []) = .next t) ∧
    ∀ m ∈ [Mnemonic.inx, .adc, .sta], m ∉ [Mnemonic.bcc, .bcs, .beq, .bne, .bmi, .bpl, .jmp, .brk] :=
  ⟨⟨_, rfl⟩, ⟨_, rfl⟩, ⟨_, rfl⟩, by decide⟩

theorem witness_OnlyStoresChangeMemory :
    (∃ t, exec (.adcAbsX 0xFFFF) (free []) = .next t) ∧ (Instr.adcAbsX 0xFFFF).mnemonic ∉ [Mnemonic.sta, .stx] :=
  ⟨⟨_, rfl⟩, by decide⟩

/-- The three storing forms; the indexed one wraps to 0x00FE. -/
theorem witness_StoresChangeOnlyTheirOwnByte :
    (∃ t, exec (.staAbs 0xFFFF) (free []) = .next t) ∧ (∃ t, exec (.stxAbs 0xFFFF) (free []) = .next t) ∧
    (∃ t, exec (.staAbsX 0xFFFF) (free []) = .next t) ∧ absAddress 0xFFFF = 0xFFFF ∧
    (free []).absXAddress 0xFFFF = 0x00FE := ⟨⟨_, rfl⟩, ⟨_, rfl⟩, ⟨_, rfl⟩, rfl, rfl⟩

/-- An instruction outside every list of writers but N's and Z's, one inside it, and BRK outside the last. -/
theorem witness_EachRegisterAndFlagHasOnlyItsListedWriters :
    (∃ t, exec .txa (free []) = .next t) ∧ (∃ t, exec (.jmp 0xFFFF) (free []) = .next t) ∧
    (Instr.jmp 0xFFFF).mnemonic ∉ [Mnemonic.adc, .sbc, .and, .eor, .ora, .lda, .txa, .asl, .lsr, .rol, .ror] ∧
    Instr.txa.mnemonic ∉ [Mnemonic.ldx, .inx, .dex, .tax] ∧
    Instr.txa.mnemonic ∉ [Mnemonic.adc, .sbc, .asl, .lsr, .rol, .ror, .cmp, .clc, .sec] ∧
    (Instr.jmp 0xFFFF).mnemonic ∈ [Mnemonic.sta, .stx, .clc, .sec, .bcc, .bcs, .beq, .bne, .bmi, .bpl, .jmp, .brk] ∧
    Instr.txa.mnemonic ∉ [Mnemonic.adc, .sbc] ∧ Instr.txa.mnemonic ≠ .brk :=
  ⟨⟨_, rfl⟩, ⟨_, rfl⟩, by decide, by decide, by decide, by decide, by decide, by decide⟩

theorem witness_NoInstructionReadsOverflow :
    (Instr.adcImm 0xFF).mnemonic ∈ [Mnemonic.adc, .sbc] ∧ (Instr.ldaImm 0xFF).mnemonic ∉ [Mnemonic.adc, .sbc] := by decide

/-- An instruction that goes on and one that halts. -/
theorem witness_StepRunsTheDecodedInstruction :
    runsFreely (free [0xE8]) ∧ runsFreely (free [0x00]) ∧
    decode (free [0xE8]).omitted (Memory.readBytes (free [0xE8]).mem (free [0xE8]).pc 3) = .ok (.inx, [0x00, 0x00]) ∧
    decode (free [0x00]).omitted (Memory.readBytes (free [0x00]).mem (free [0x00]).pc 3) = .ok (.brk, [0x00, 0x00]) ∧
    (∃ t, exec .inx (free [0xE8]) = .next t ∧ t.run = .running) ∧
    (∃ t, exec .brk (free [0x00]) = .next t ∧ t.run ≠ .running) :=
  ⟨free_runsFreely _, free_runsFreely _, rfl, rfl, ⟨_, rfl, rfl⟩, ⟨_, rfl, by decide⟩⟩

/-- 0x02 is in no row; 0x7D is a row the second machine lacks. -/
theorem witness_UnknownOpcodeHaltsAndChangesNothingElse :
    runsFreely (free [0x02]) ∧
    (∀ i : Instr, i.wellFormed [] = true → (encode i).head? ≠ some (Memory.read8 (free [0x02]).mem 0x8000)) ∧
    ∀ i : Instr, i.wellFormed [⟨.adc, .absX⟩] = true → (encode i).head? ≠ some 0x7D := by
  have key : ∀ (omitted : List Form) (b : Byte) (i : Instr), romRow? omitted b = none → i.wellFormed omitted = true →
      (encode i).head? ≠ some b := by
    intro omitted b i hb hi e
    rw [encode_eq, List.head?_cons, Option.some.injEq] at e
    rw [← e, romRow_opcode hi] at hb
    cases hb
  exact ⟨free_runsFreely _, fun i => key [] _ i (by decide), fun i => key _ _ i (by decide)⟩

theorem witness_RunningIntoUnwrittenMemoryHaltsByBrk :
    runsFreely (free []) ∧ (⟨.brk, .imp⟩ : Form) ∉ (free []).omitted ∧
    Memory.read8 (free []).mem (free []).pc = 0 := ⟨free_runsFreely _, by decide, rfl⟩

/-- Two steps of a halted core, whether or not its controller has ended too. -/
theorem witness_HaltedIsForever :
    ((free []).halt .brk).run = .halted .brk ∧ (∃ t, core.run 2 ((free []).halt .brk) = .next t) ∧
    ((free []).halt (.unknownOpcode 0x02)).run = .halted (.unknownOpcode 0x02) :=
  ⟨rfl, ⟨_, rfl⟩, rfl⟩

theorem witness_YSAndTheUnusedBitsOfPNeverChange :
    (∃ t, core.run 0 (free [0xE8]) = .next t) ∧ ∃ t, core.run 2 (free [0xE8]) = .next t := ⟨⟨_, rfl⟩, ⟨_, rfl⟩⟩

theorem witness_ConstructionAndLoadGiveTheResetState :
    (List.replicate 65536 (0xFF : Byte)).length ≤ 65536 ∧ Config.default.mode ≠ .debug ∧
    (Config.mk 0xFF 0xFF 0xFF 0xFF 0xFF [] .debug).mode = .debug :=
  ⟨by rw [List.length_replicate], by decide, rfl⟩

theorem witness_EveryStepKeepsTheInvariant :
    State.reset.Inv ∧ (∃ t, step State.reset = .next t) ∧ (paused ['m']).Inv ∧ ∃ t, step (paused ['m']) = .next t :=
  ⟨⟨by decide, rfl⟩, ⟨_, rfl⟩, ⟨by decide, rfl⟩, ⟨_, rfl⟩⟩

/-- STA $8003 with A = 0xE8: the next fetch finds INX. -/
theorem witness_StoredByteIsFetchedByTheNextStep :
    runsFreely (free [0x8D, 0x03, 0x80]) ∧
    (free [0x8D, 0x03, 0x80]).fetch = .ok (.staAbs ((free [0x8D, 0x03, 0x80]).pc + 3)) ∧
    decode (free [0x8D, 0x03, 0x80]).omitted [(free [0x8D, 0x03, 0x80]).a,
      Memory.read8 (free [0x8D, 0x03, 0x80]).mem ((free [0x8D, 0x03, 0x80]).pc + 4),
      Memory.read8 (free [0x8D, 0x03, 0x80]).mem ((free [0x8D, 0x03, 0x80]).pc + 5)] = .ok (.inx, [0x00, 0x00]) :=
  ⟨free_runsFreely _, rfl, rfl⟩

theorem witness_StoreOntoItsOwnOperandKeepsItsAddress :
    runsFreely (free [0x8D, 0x01, 0x80]) ∧
    (free [0x8D, 0x01, 0x80]).fetch = .ok (.staAbs ((free [0x8D, 0x01, 0x80]).pc + 1)) := ⟨free_runsFreely _, rfl⟩

theorem witness_CpuChangesOnlyByADispatcherStep :
    (∃ t, step (free [0xE8]) = .next t) ∧ ∃ t, step (paused ['m']) = .next t := ⟨⟨_, rfl⟩, ⟨_, rfl⟩⟩

theorem witness_DebugModePausesBeforeTheFirstFetch :
    ({ Config.default with mode := .debug } : Config).mode = .debug := rfl

/-- `step 3`, and the boundary `step 0`. -/
theorem witness_StepCommandRunsExactlyNInstructions :
    (paused ['s', 't', 'e', 'p', ' ', '3']).dbg.controller = .pausedInteractive ∧
    (paused ['s', 't', 'e', 'p', ' ', '3']).dbg.commands = [['s', 't', 'e', 'p', ' ', '3']] ∧
    parseCommand ['s', 't', 'e', 'p', ' ', '3'] = .step 3 ∧ parseCommand ['s', 't', 'e', 'p', ' ', '0'] = .step 0 ∧
    (paused ['s', 't', 'e', 'p', ' ', '3']).run = .running ∧
    (∃ u, dispatches 3 (paused ['s', 't', 'e', 'p', ' ', '3']) = .next u ∧ u.run = .running ∧ u.pc = 0x8005) ∧
    ∃ u, dispatches 0 (paused ['s', 't', 'e', 'p', ' ', '0']) = .next u ∧ u.run = .running :=
  ⟨rfl, rfl, by decide, by decide, rfl, ⟨_, rfl, rfl, rfl⟩, ⟨_, rfl, rfl⟩⟩

/-- A debugged core about to execute BRK as the last step of `step 1`. -/
theorem witness_HaltWhileSteppingEntersTerminalInspection :
    ∃ s u : State, s.dbg.controller = .singleStep (0 + 1) ∧ s.dbg.mode = .debug ∧ s.run = .running ∧
      s.dispatch = .next u ∧ u.run = .halted .brk :=
  ⟨(State.construct { Config.default with mode := .debug }).setController (.singleStep 1), _, rfl, rfl, rfl, rfl, rfl⟩

/-- A core about to halt, in run mode and, after `end`, in debug mode. -/
theorem witness_HaltWhileRunningEndsByMode :
    (∃ u, runsFreely (free [0x02]) ∧ (free [0x02]).dispatch = .next u ∧ u.run = .halted (.unknownOpcode 0x02) ∧
      (free [0x02]).dbg.mode = .run) ∧
    ∃ s u : State, runsFreely s ∧ s.dispatch = .next u ∧ u.run = .halted .brk ∧ s.dbg.mode = .debug :=
  ⟨⟨_, free_runsFreely _, rfl, rfl, rfl⟩,
    ⟨State.reset.setDbg { State.reset.dbg with mode := .debug }, _, ⟨rfl, rfl, rfl⟩, rfl, rfl, rfl⟩⟩

/-- Each of the five commands, with the largest address and the smallest count among them. -/
theorem witness_PausedCommandsActOnTheControllerAlone :
    (paused ['e', 'n', 'd']).dbg.controller = .pausedInteractive ∧ (paused ['e', 'n', 'd']).dbg.commands = [['e', 'n', 'd']] ∧
    parseCommand ['s', 't', 'e', 'p', ' ', '0'] = .step 0 ∧
    parseCommand ['m', ' ', 'F', 'F', 'F', 'F'] = .memoryView 0xFFFF ∧
    parseCommand ['i', ' ', '0'] = .instructionView 0 ∧ parseCommand ['e', 'n', 'd'] = .endPausing ∧
    parseCommand ['e', 'x', 'i', 't'] = .exit := by decide

/-- A missing address and a malformed one, paused and in inspection; and a hexadecimal count of `step`, which is not
decimal. -/
theorem witness_InvalidArgumentIsRejectedAndChangesNoState :
    (paused ['m']).dbg.controller = .pausedInteractive ∧ (paused ['m']).dbg.commands = [['m']] ∧
    (splitLine ['m']).1 ∈ [['m'], ['i']] ∧ number? 16 (splitLine ['m']).2 = none ∧
    ((paused ['i', ' ', 'g']).setController .terminalInspection).dbg.controller = .terminalInspection ∧
    (splitLine ['i', ' ', 'g']).1 ∈ [['m'], ['i']] ∧ number? 16 (splitLine ['i', ' ', 'g']).2 = none ∧
    (splitLine ['s', 't', 'e', 'p', ' ', 'A']).1 = ['s', 't', 'e', 'p'] ∧ (splitLine ['s', 't', 'e', 'p', ' ', 'A']).2 ≠ [] ∧
    number? 10 (splitLine ['s', 't', 'e', 'p', ' ', 'A']).2 = none := by decide

/-- An unknown word, an empty line, `end` and `exit` with an argument, and the two words TerminalInspection does not take. -/
theorem witness_UnrecognizedCommandLeavesTheStateUnchanged :
    (paused ['f', 'o', 'o']).dbg.controller = .pausedInteractive ∧ (paused ['f', 'o', 'o']).dbg.commands = [['f', 'o', 'o']] ∧
    (splitLine ['f', 'o', 'o']).1 ∉ [['s', 't', 'e', 'p'], ['m'], ['i'], ['e', 'n', 'd'], ['e', 'x', 'i', 't']] ∧
    ((paused []).setController .terminalInspection).dbg.controller = .terminalInspection ∧
    (splitLine []).1 ∉ [['s', 't', 'e', 'p'], ['m'], ['i'], ['e', 'n', 'd'], ['e', 'x', 'i', 't']] ∧
    (splitLine ['e', 'n', 'd', ' ', 'x']).1 ∈ [['e', 'n', 'd'], ['e', 'x', 'i', 't']] ∧ (splitLine ['e', 'n', 'd', ' ', 'x']).2 ≠ [] ∧
    (splitLine ['e', 'x', 'i', 't', ' ', 'x']).1 ∈ [['e', 'n', 'd'], ['e', 'x', 'i', 't']] ∧
    (splitLine ['e', 'x', 'i', 't', ' ', 'x']).2 ≠ [] ∧
    (splitLine ['s', 't', 'e', 'p', ' ', '3']).1 ∈ [['s', 't', 'e', 'p'], ['e', 'n', 'd']] ∧
    (splitLine ['e', 'n', 'd']).1 ∈ [['s', 't', 'e', 'p'], ['e', 'n', 'd']] := by decide

/-- A view command, `exit` and a command that is not accepted there. -/
theorem witness_TerminalInspectionAcceptsOnlyViewsAndExit :
    ((paused ['e', 'x', 'i', 't']).setController .terminalInspection).dbg.controller = .terminalInspection ∧
    ((paused ['e', 'x', 'i', 't']).setController .terminalInspection).dbg.commands = [['e', 'x', 'i', 't']] ∧
    parseCommand ['e', 'x', 'i', 't'] = .exit ∧ parseCommand ['e', 'n', 'd'] ≠ .exit ∧
    parseCommand ['m', ' ', '0'] = .memoryView 0 ∧ parseCommand ['i', ' ', 'F', 'F', 'F', 'F'] = .instructionView 0xFFFF := by
  decide

theorem witness_DisassemblyOfAssembledTextIsTheText :
    Instr.wellFormed [⟨.adc, .absX⟩] (.staAbsX 0xFFFF) = true ∧ Instr.wellFormed [] (.bcc 0x80) = true := by decide

theorem witness_AssemblyOfDisassembledBytesIsTheBytes :
    romRow? [] (Memory.read8 (free [0xBD, 0x34, 0x12]).mem 0x8000) ≠ none := by decide

theorem witness_DisassemblerAlwaysAdvances :
    romRow? [] (Memory.read8 (free [0x02]).mem 0x8000) = none ∧
    romRow? [] (Memory.read8 (startAt 0xFFFF [0xAD, 0x34, 0x12] 0 0 0).mem 0xFFFF) = some ⟨⟨.lda, .abs⟩, 0xAD⟩ := by decide

/-- S5's two lines, whose load is that of their five bytes, and a line that is no instruction. -/
theorem witness_AssemblyLoadSucceedsOnlyOnGoodLines :
    State.reset.loadAssembly [['l', 'd', 'a', ' ', '#', '$', '0', '5'], ['s', 't', 'a', ' ', '$', '9', '0', '0', '0'], [' '], ['?']] =
      .ok (State.reset.loadBytes [0xA9, 0x05, 0x8D, 0x00, 0x90]) ∧
    parseLine ['l', 'd', 'a', ' ', '#', '$', '0', '5'] = some ((Instr.ldaImm 0x05).form, (Instr.ldaImm 0x05).operand) ∧
    parseLine ['?'] = none := ⟨rfl, rfl, rfl⟩

/-- After `exit` with the core still running. -/
theorem witness_TerminatedIsFinal :
    (after (paused ['e', 'x', 'i', 't'])).dbg.controller = .terminated ∧
    (after (paused ['e', 'x', 'i', 't'])).run = .running ∧
    (∃ t, step (after (paused ['e', 'x', 'i', 't'])) = .next t) ∧
    ∃ t, core.run 2 (after (paused ['e', 'x', 'i', 't'])) = .next t := ⟨rfl, rfl, ⟨_, rfl⟩, ⟨_, rfl⟩⟩

end Sys2Proof.Tests
end

section
/-!
SUPPORT. What an instruction may write (10_state.md R36): one inversion lemma for the parts of the state, one for the bits of
P, each over all 44 instructions, so that no later proof splits the instructions to learn what they leave unchanged.
-/

namespace Sys2Proof.Machine

open Sys2Proof.Claims

/-- The bits of P an instruction may write, by its mnemonic (the flag columns of 10_state.md R36). -/
def writtenBits : Mnemonic → List Nat
  | .adc | .sbc => [7, 6, 1, 0]
  | .asl | .lsr | .rol | .ror | .cmp => [7, 1, 0]
  | .and | .eor | .ora | .lda | .ldx | .inx | .dex | .tax | .txa => [7, 1]
  | .clc | .sec => [0]
  | .sta | .stx | .bcc | .bcs | .beq | .bne | .bmi | .bpl | .jmp | .brk => []

theorem carry_mem_writtenBits (m : Mnemonic) :
    0 ∈ writtenBits m ↔ m ∈ [.adc, .sbc, .asl, .lsr, .rol, .ror, .cmp, .clc, .sec] := by cases m <;> decide

theorem zero_mem_writtenBits (m : Mnemonic) :
    1 ∈ writtenBits m ↔ m ∉ [.sta, .stx, .clc, .sec, .bcc, .bcs, .beq, .bne, .bmi, .bpl, .jmp, .brk] := by
  cases m <;> decide

theorem overflow_mem_writtenBits (m : Mnemonic) : 6 ∈ writtenBits m ↔ m ∈ [.adc, .sbc] := by cases m <;> decide

theorem negative_mem_writtenBits (m : Mnemonic) :
    7 ∈ writtenBits m ↔ m ∉ [.sta, .stx, .clc, .sec, .bcc, .bcs, .beq, .bne, .bmi, .bpl, .jmp, .brk] := by
  cases m <;> decide

/-- No instruction writes bits 5 to 2 (10_state.md R31). -/
theorem writtenBits_subset (m : Mnemonic) : writtenBits m ⊆ [7, 6, 1, 0] := by cases m <;> decide

theorem setFlag_keepsBitsBut (s : State) (f : Flag) (b : Bool) : keepsBitsBut [f.bit] s (s.setFlag f b) := fun k hk => by
  rw [State.setFlag_bit, if_neg (by simpa using hk)]

theorem setANZ_keepsBitsBut (s : State) (r : Byte) : keepsBitsBut [7, 1] s (s.setANZ r) := fun k hk => by
  rw [(s.setANZ_spec r).2]
  simp_all

theorem setXNZ_keepsBitsBut (s : State) (r : Byte) : keepsBitsBut [7, 1] s (s.setXNZ r) := fun k hk => by
  rw [(s.setXNZ_spec r).2]
  simp_all

theorem shifted_keepsBitsBut (s : State) (c : Bool) (r : Byte) : keepsBitsBut [7, 1, 0] s (s.shifted c r) := fun k hk => by
  rw [(s.shifted_spec c r).2]
  simp_all

theorem cmp_keepsBitsBut (s : State) (v : Byte) : keepsBitsBut [7, 1, 0] s (s.cmp v) := fun k hk => by
  rw [(s.cmp_spec v).2]
  simp_all

theorem adc_keepsBitsBut (s : State) (v : Byte) : keepsBitsBut [7, 6, 1, 0] s (s.adc v) := fun k hk => by
  rw [(s.adc_spec v).2]
  simp_all

theorem sbc_keepsBitsBut (s : State) (v : Byte) : keepsBitsBut [7, 6, 1, 0] s (s.sbc v) := fun k hk => by
  rw [(s.sbc_spec v).2]
  simp_all

theorem keepsBitsBut_advance {written : List Nat} {s t : State} {m : Mode} (h : keepsBitsBut written s t) :
    keepsBitsBut written s (t.advance m) := h

/-- Every bit of P that an instruction's mnemonic does not list keeps its value. -/
theorem exec_keepsBitsBut {i : Instr} {s t : State} (h : exec i s = .next t) :
    keepsBitsBut (writtenBits i.mnemonic) s t := by
  cases i <;> injection h with h <;> subst h
  case adcImm | adcAbs | adcAbsX => exact keepsBitsBut_advance (adc_keepsBitsBut s _)
  case sbcImm | sbcAbs | sbcAbsX => exact keepsBitsBut_advance (sbc_keepsBitsBut s _)
  case asl | lsr | rol | ror => exact keepsBitsBut_advance (shifted_keepsBitsBut s _ _)
  case cmpImm | cmpAbs | cmpAbsX => exact keepsBitsBut_advance (cmp_keepsBitsBut s _)
  case ldxImm | ldxAbs | inx | dex | tax => exact keepsBitsBut_advance (setXNZ_keepsBitsBut s _)
  case clc | sec => exact keepsBitsBut_advance (setFlag_keepsBitsBut s .carry _)
  case staAbs | staAbsX | stxAbs | bcc | bcs | beq | bne | bmi | bpl | jmp | brk => exact fun _ _ => rfl
  case andImm | andAbs | andAbsX | eorImm | eorAbs | eorAbsX | oraImm | oraAbs | oraAbsX | ldaImm | ldaAbs | ldaAbsX | txa =>
    exact keepsBitsBut_advance (setANZ_keepsBitsBut s _)

/-- Which parts of the state an instruction may write, by its mnemonic (10_state.md R36); which bits of P is `writtenBits`. -/
inductive Writes (m : Mnemonic) (s t : State) : Prop where
  | accumulator (hm : m ∈ [.adc, .sbc, .and, .eor, .ora, .lda, .txa, .asl, .lsr, .rol, .ror]) (ht : onlyAPPc s t)
  | index (hm : m ∈ [.ldx, .inx, .dex, .tax]) (ht : onlyXPPc s t)
  | flags (hm : m ∈ [.cmp, .clc, .sec]) (ht : onlyPPc s t)
  | memory (hm : m ∈ [.sta, .stx]) (ht : t = { s with mem := t.mem, pc := t.pc })
  | transfer (hm : m ∈ [.bcc, .bcs, .beq, .bne, .bmi, .bpl, .jmp]) (ht : t = { s with pc := t.pc })
  | halt (hm : m = .brk) (ht : t = s.halt .brk)

/-- A result in A with its flags, whatever other bits of P were set before. -/
theorem onlyAPPc_setANZ_advance (s : State) (p r : Byte) (m : Mode) :
    onlyAPPc s (((s.setP p).setANZ r).advance m) := rfl

/-- A result in X with its flags. -/
theorem onlyXPPc_setXNZ_advance (s : State) (r : Byte) (m : Mode) : onlyXPPc s ((s.setXNZ r).advance m) := rfl

/-- Bits of P alone. -/
theorem onlyPPc_setP_advance (s : State) (p : Byte) (m : Mode) : onlyPPc s ((s.setP p).advance m) := rfl

/-- Every instruction writes as its mnemonic says. -/
theorem exec_writes {i : Instr} {s t : State} (h : exec i s = .next t) : Writes i.mnemonic s t := by
  cases i <;> injection h with h <;> subst h
  case ldxImm | ldxAbs | inx | dex | tax =>
    exact .index (by simp [Instr.mnemonic, Instr.form]) (onlyXPPc_setXNZ_advance s _ _)
  case cmpImm | cmpAbs | cmpAbsX | clc | sec =>
    exact .flags (by simp [Instr.mnemonic, Instr.form]) (onlyPPc_setP_advance s _ _)
  case staAbs | staAbsX | stxAbs => exact .memory (by simp [Instr.mnemonic, Instr.form]) rfl
  case bcc | bcs | beq | bne | bmi | bpl | jmp => exact .transfer (by simp [Instr.mnemonic, Instr.form]) rfl
  case brk => exact .halt rfl rfl
  -- the rest leave a result in A
  all_goals exact .accumulator (by simp [Instr.mnemonic, Instr.form]) (onlyAPPc_setANZ_advance s _ _ _)

section
variable {m : Mnemonic} {s t : State} (h : Writes m s t)
include h

theorem Writes.a (hm : m ∉ [.adc, .sbc, .and, .eor, .ora, .lda, .txa, .asl, .lsr, .rol, .ror]) : t.a = s.a := by
  cases h with
  | accumulator hA => exact absurd hA hm
  | index _ ht | flags _ ht | memory _ ht | transfer _ ht | halt _ ht => exact (congrArg State.a ht :)

theorem Writes.x (hm : m ∉ [.ldx, .inx, .dex, .tax]) : t.x = s.x := by
  cases h with
  | index hX => exact absurd hX hm
  | accumulator _ ht | flags _ ht | memory _ ht | transfer _ ht | halt _ ht => exact (congrArg State.x ht :)

theorem Writes.run (hm : m ≠ .brk) : t.run = s.run := by
  cases h with
  | halt hB => exact absurd hB hm
  | accumulator _ ht | index _ ht | flags _ ht | memory _ ht | transfer _ ht => exact (congrArg State.run ht :)

end

/-- Y, S, the opcode ROM and the debug controller are out of every instruction's reach. -/
theorem exec_frame {i : Instr} {s t : State} (h : exec i s = .next t) :
    t = { s with a := t.a, x := t.x, pc := t.pc, p := t.p, mem := t.mem, run := t.run } := by
  cases i <;> injection h with h <;> subst h <;> rfl

theorem exec_y {i : Instr} {s t : State} (h : exec i s = .next t) : t.y = s.y := (congrArg State.y (exec_frame h) :)

theorem exec_s {i : Instr} {s t : State} (h : exec i s = .next t) : t.s = s.s := (congrArg State.s (exec_frame h) :)

theorem exec_omitted {i : Instr} {s t : State} (h : exec i s = .next t) : t.omitted = s.omitted :=
  (congrArg State.omitted (exec_frame h) :)

/-- Bits 5 to 2 of P keep their value under every instruction (10_state.md R31). -/
theorem exec_keepsUnusedBits {i : Instr} {s t : State} (h : exec i s = .next t) : keepsBitsBut [7, 6, 1, 0] s t :=
  fun k hk => exec_keepsBitsBut h k fun hw => hk (writtenBits_subset _ hw)

end Sys2Proof.Machine
end

section
/-!
SUPPORT. What a step of the machine can do, said once, and the induction over the steps of a run (60_exceptions.md R232).
-/

namespace Sys2Proof.Machine

/-- A result with something after it is a next state only where the result is one. -/
theorem andThen_next {r : Result} {f : State → State} {t : State} (h : andThen r f = .next t) :
    ∃ u, r = .next u ∧ t = f u := by
  cases r with
  | next u => injection h with h; exact ⟨u, rfl, h.symm⟩
  | fault e => exact absurd h nofun
  | refused e => exact absurd h nofun

theorem settle_mode (s : State) : s.settle.dbg.mode = s.dbg.mode := by
  unfold State.settle
  split <;> rfl

/-- Reading a command keeps the mode if obeying one does. -/
theorem readCommand_mode (d : Debugger) {obey : Debugger → Text → Debugger}
    (h : ∀ (e : Debugger) (line : Text), (obey e line).mode = e.mode) : (d.readCommand obey).mode = d.mode := by
  unfold Debugger.readCommand
  split
  · rfl
  · exact h _ _

/-- Everything a step can do: the mode stays, and the CPU stays or does one dispatcher step (60_exceptions.md R232). -/
theorem step_cases {s t : State} (h : step s = .next t) :
    t.dbg.mode = s.dbg.mode ∧ (s.sameCpu t ∨ ∃ u, s.dispatch = .next u ∧ u.sameCpu t) := by
  unfold step State.cycle at h
  split at h
  case h_1 => -- ContinuousRun
    split at h
    · injection h with h
      subst h
      exact ⟨rfl, .inl rfl⟩
    · obtain ⟨u, hu, rfl⟩ := andThen_next h
      exact ⟨(settle_mode u).trans (congrArg Debugger.mode (dispatch_dbg hu)), .inr ⟨u, hu, sameCpu_settle u⟩⟩
  case h_3 n _ => -- SingleStep with steps left
    obtain ⟨u, hu, rfl⟩ := andThen_next h
    have hc : u.sameCpu (u.setController (.singleStep n)) := rfl
    exact ⟨(settle_mode _).trans (congrArg Debugger.mode (dispatch_dbg hu) :),
      .inr ⟨u, hu, sameCpu_trans hc (sameCpu_settle _)⟩⟩
  all_goals
    injection h with h
    subst h
  -- PausedInteractive and TerminalInspection read a command; the last step and Terminated run nothing
  case h_4 => exact ⟨readCommand_mode _ pausedCommand_mode, .inl rfl⟩
  case h_5 => exact ⟨readCommand_mode _ inspectionCommand_mode, .inl rfl⟩
  all_goals exact ⟨rfl, .inl rfl⟩

/-- Every step completes (20_memory.md R41, 60_exceptions.md R220). -/
theorem step_next (s : State) : ∃ t, step s = .next t := by
  obtain ⟨u, hu⟩ := dispatch_next s
  unfold step State.cycle
  rw [hu]
  split
  · split <;> exact ⟨_, rfl⟩
  all_goals exact ⟨_, rfl⟩

/-- A run of one step more is a step and a run from there. -/
theorem run_succ_next {n : Nat} {s t : State} (h : core.run (n + 1) s = .next t) :
    ∃ u, step s = .next u ∧ core.run n u = .next t := by
  obtain ⟨u, hs⟩ := step_next s
  exact ⟨u, hs, (run_succ hs).symm.trans h⟩

/-- The induction over a run: a relation that every step extends on the left holds between the ends of every run. -/
theorem run_induction {R : State → State → Prop} (refl : ∀ s, R s s)
    (extend : ∀ s u t, step s = .next u → R u t → R s t) {n : Nat} {s t : State} (h : core.run n s = .next t) :
    R s t := by
  induction n generalizing s with
  | zero =>
    injection h with h
    exact h ▸ refl s
  | succ n ih =>
    obtain ⟨u, hs, hr⟩ := run_succ_next h
    exact extend s u t hs (ih hr)

end Sys2Proof.Machine
end

section
/-!
SUPPORT. The parts of the state that nothing writes: Y, S, bits 5 to 2 of P, the opcode ROM and the mode (10_state.md R23,
R25, R31).
-/

namespace Sys2Proof.Machine

open Sys2Proof.Claims

/-- `st'` agrees with `st` in every part of the state that nothing writes. -/
structure SameFixed (st st' : State) : Prop where
  y : st'.y = st.y
  s : st'.s = st.s
  bits : keepsBitsBut [7, 6, 1, 0] st st'
  omitted : st'.omitted = st.omitted
  mode : st'.dbg.mode = st.dbg.mode

theorem SameFixed.refl (s : State) : SameFixed s s := ⟨rfl, rfl, fun _ _ => rfl, rfl, rfl⟩

theorem SameFixed.trans {s u t : State} (h : SameFixed s u) (k : SameFixed u t) : SameFixed s t :=
  ⟨k.y.trans h.y, k.s.trans h.s, fun j hj => (k.bits j hj).trans (h.bits j hj), k.omitted.trans h.omitted,
    k.mode.trans h.mode⟩

theorem sameFixed_of_sameCpu {s t : State} (h : s.sameCpu t) (hm : t.dbg.mode = s.dbg.mode) : SameFixed s t :=
  ⟨(congrArg State.y h :), (congrArg State.s h :), fun k _ => (congrArg (fun u => u.p.getLsbD k) h :),
    (congrArg State.omitted h :), hm⟩

theorem exec_sameFixed {i : Instr} {s t : State} (h : exec i s = .next t) : SameFixed s t :=
  ⟨exec_y h, exec_s h, exec_keepsUnusedBits h, exec_omitted h, congrArg Debugger.mode (exec_dbg h)⟩

theorem dispatch_sameFixed {s t : State} (h : s.dispatch = .next t) : SameFixed s t := by
  rcases dispatch_cases h with ⟨rfl, _⟩ | ⟨_, i, _, hi⟩ | ⟨_, _, rfl⟩
  · exact .refl _
  · exact exec_sameFixed hi
  · exact ⟨rfl, rfl, fun _ _ => rfl, rfl, rfl⟩

theorem step_sameFixed {s t : State} (h : step s = .next t) : SameFixed s t := by
  obtain ⟨hm, hc | ⟨u, hu, hc⟩⟩ := step_cases h
  · exact sameFixed_of_sameCpu hc hm
  · have hmode : u.dbg.mode = s.dbg.mode := congrArg Debugger.mode (dispatch_dbg hu)
    exact (dispatch_sameFixed hu).trans (sameFixed_of_sameCpu hc (hm.trans hmode.symm))

end Sys2Proof.Machine

namespace Sys2Proof.Claims

open Sys2Proof.Machine

/-- Settles O40: every step keeps the parts that nothing writes, and with it every run. -/
theorem ySAndTheUnusedBitsOfPNeverChange : Obligations.YSAndTheUnusedBitsOfPNeverChange := by
  intro n s t h
  obtain ⟨hy, hs, hbits, hrom, hmode⟩ :=
    run_induction SameFixed.refl (fun _ _ _ hstep hrest => (step_sameFixed hstep).trans hrest) h
  exact ⟨hy, hs, hbits, hrom, hmode⟩

/-- Settles O33: the registers by `exec_writes`, the flags by `exec_keepsBitsBut`. -/
theorem eachRegisterAndFlagHasOnlyItsListedWriters : Obligations.EachRegisterAndFlagHasOnlyItsListedWriters := by
  intro i s t h
  have hw := exec_writes h
  have hbits := exec_keepsBitsBut h
  have hcarry := hbits 0
  have hzero := hbits 1
  have hoverflow := hbits 6
  have hnegative := hbits 7
  rw [carry_mem_writtenBits] at hcarry
  rw [zero_mem_writtenBits, not_not] at hzero
  rw [overflow_mem_writtenBits] at hoverflow
  rw [negative_mem_writtenBits, not_not] at hnegative
  exact ⟨hw.a, hw.x, hcarry, fun hm => ⟨hnegative hm, hzero hm⟩, hoverflow, hw.run, exec_keepsUnusedBits h, exec_y h,
    exec_s h, exec_omitted h, exec_dbg h⟩

end Sys2Proof.Claims
end

section
/-!
SUPPORT. Overflow is read by no instruction (10_state.md R28): every operation of the ALU does the same whatever V was, and
carries V along unless it writes V itself.
-/

namespace Sys2Proof.Machine

section
variable (s : State) (b : Bool)

theorem setNZ_setOverflow (r : Byte) : (s.setFlag .overflow b).setNZ r = (s.setNZ r).setFlag .overflow b := by
  rw [State.setNZ, State.setFlag_comm s b _ (by decide), State.setFlag_comm _ b _ (by decide), State.setNZ]

theorem setANZ_setOverflow (r : Byte) : (s.setFlag .overflow b).setANZ r = (s.setANZ r).setFlag .overflow b :=
  setNZ_setOverflow (s.setA r) b r

theorem setXNZ_setOverflow (r : Byte) : (s.setFlag .overflow b).setXNZ r = (s.setXNZ r).setFlag .overflow b :=
  setNZ_setOverflow (s.setX r) b r

theorem shifted_setOverflow (c : Bool) (r : Byte) :
    (s.setFlag .overflow b).shifted c r = (s.shifted c r).setFlag .overflow b := by
  rw [State.shifted, State.setFlag_comm s b c (by decide), setANZ_setOverflow, State.shifted]

theorem carry_setOverflow : (s.setFlag .overflow b).flag .carry = s.flag .carry := State.flag_setFlag s _ _ b

theorem zero_setOverflow : (s.setFlag .overflow b).flag .zero = s.flag .zero := State.flag_setFlag s _ _ b

theorem negative_setOverflow : (s.setFlag .overflow b).flag .negative = s.flag .negative := State.flag_setFlag s _ _ b

theorem rol_setOverflow : (s.setFlag .overflow b).rol = s.rol.setFlag .overflow b := by
  rw [State.rol, shifted_setOverflow, carry_setOverflow]
  rfl

theorem ror_setOverflow : (s.setFlag .overflow b).ror = s.ror.setFlag .overflow b := by
  rw [State.ror, shifted_setOverflow, carry_setOverflow]
  rfl

theorem cmp_setOverflow (v : Byte) : (s.setFlag .overflow b).cmp v = (s.cmp v).setFlag .overflow b := by
  rw [State.cmp, State.setFlag_comm s b _ (by decide), State.setFlag_comm _ b _ (by decide),
    State.setFlag_comm _ b _ (by decide)]
  rfl

/-- A branch on one and the same condition carries V along. -/
theorem next_branch_setOverflow {c c' : Bool} (d : Byte) (h : c' = c) :
    (.next ((s.setFlag .overflow b).branch c' d) : Result) =
      andThen (.next (s.branch c d)) fun t => t.setFlag .overflow b := by
  rw [h]
  rfl

/-- A Carry and an Overflow written together leave nothing of the Overflow before. -/
theorem setCarry_setOverflow (c v : Bool) :
    ((s.setFlag .overflow b).setFlag .carry c).setFlag .overflow v = (s.setFlag .carry c).setFlag .overflow v := by
  rw [State.setFlag_comm s b c (by decide), State.setFlag_idem]

theorem adc_setOverflow (v : Byte) : (s.setFlag .overflow b).adc v = s.adc v := by
  simp only [State.adc, carry_setOverflow, setCarry_setOverflow, State.setFlag_a]

theorem sbc_setOverflow (v : Byte) : (s.setFlag .overflow b).sbc v = s.sbc v := by
  simp only [State.sbc, carry_setOverflow, setCarry_setOverflow, State.setFlag_a]

end

/-- An instruction with an effect that does not depend on V does not either, once PC has moved. -/
theorem next_advance_congr {t u : State} {m : Mode} (h : t = u) :
    (.next (t.advance m) : Result) = .next (u.advance m) := by rw [h]

/-- An instruction with an effect that carries V along does so too, once PC has moved. -/
theorem next_advance_setOverflow {t u : State} {m : Mode} {b : Bool} (h : t = u.setFlag .overflow b) :
    (.next (t.advance m) : Result) = andThen (.next (u.advance m)) fun r => r.setFlag .overflow b := by
  rw [h]
  rfl

/-- ADC and SBC give the same result whatever V was. -/
theorem exec_setOverflow_of_mem {i : Instr} (hi : i.mnemonic ∈ [.adc, .sbc]) (s : State) (b : Bool) :
    exec i (s.setFlag .overflow b) = exec i s := by
  cases i
  case adcImm | adcAbs | adcAbsX => exact next_advance_congr (adc_setOverflow s b _)
  case sbcImm | sbcAbs | sbcAbsX => exact next_advance_congr (sbc_setOverflow s b _)
  all_goals exact absurd hi (by simp [Instr.mnemonic, Instr.form])

/-- Every other instruction carries V along. -/
theorem exec_setOverflow_of_notMem {i : Instr} (hi : i.mnemonic ∉ [.adc, .sbc]) (s : State) (b : Bool) :
    exec i (s.setFlag .overflow b) = andThen (exec i s) fun t => t.setFlag .overflow b := by
  cases i
  case adcImm | adcAbs | adcAbsX | sbcImm | sbcAbs | sbcAbsX => simp [Instr.mnemonic, Instr.form] at hi
  case asl | lsr => exact next_advance_setOverflow (shifted_setOverflow s b _ _)
  case rol => exact next_advance_setOverflow (rol_setOverflow s b)
  case ror => exact next_advance_setOverflow (ror_setOverflow s b)
  case cmpImm | cmpAbs | cmpAbsX => exact next_advance_setOverflow (cmp_setOverflow s b _)
  case ldxImm | ldxAbs | inx | dex | tax => exact next_advance_setOverflow (setXNZ_setOverflow s b _)
  case clc | sec => exact next_advance_setOverflow (State.setFlag_comm s b _ (by decide))
  case bcc d => exact next_branch_setOverflow s b d (congrArg not (carry_setOverflow s b))
  case bcs d => exact next_branch_setOverflow s b d (carry_setOverflow s b)
  case beq d => exact next_branch_setOverflow s b d (zero_setOverflow s b)
  case bne d => exact next_branch_setOverflow s b d (congrArg not (zero_setOverflow s b))
  case bmi d => exact next_branch_setOverflow s b d (negative_setOverflow s b)
  case bpl d => exact next_branch_setOverflow s b d (congrArg not (negative_setOverflow s b))
  case staAbs | staAbsX | stxAbs | jmp | brk => rfl
  case andImm | andAbs | andAbsX | eorImm | eorAbs | eorAbsX | oraImm | oraAbs | oraAbsX | ldaImm | ldaAbs | ldaAbsX | txa =>
    exact next_advance_setOverflow (setANZ_setOverflow s b _)

end Sys2Proof.Machine
end

section
/-! The rest of the family 10_state.md: Overflow, and the state after construction and load. -/

namespace Sys2Proof.Claims

open Sys2Proof.Machine

/-- Settles O34, by the two groups of instructions. -/
theorem noInstructionReadsOverflow : Obligations.NoInstructionReadsOverflow := fun _ s b =>
  ⟨fun hi => exec_setOverflow_of_mem hi s b, fun hi => exec_setOverflow_of_notMem hi s b⟩

/-- Settles O41: what a write of the stream leaves in the empty memory, and the values construction gives. -/
theorem constructionAndLoadGiveTheResetState : Obligations.ConstructionAndLoadGiveTheResetState := by
  intro c bytes hlen
  obtain ⟨hstream, hother⟩ := Memory.read8_writeBytes bytes [] Config.loadBase hlen
  exact ⟨hstream, hother, rfl, rfl, rfl, rfl, rfl, rfl, rfl, rfl, decide_eq_true_iff⟩

/-- The controller is consistent after construction, in either mode, and a load does not touch it. -/
theorem controllerOk_construct_loadBytes (c : Config) (bytes : List Byte) :
    ((State.construct c).loadBytes bytes).controllerOk = true := by
  obtain ⟨_, _, _, _, _, _, mode⟩ := c
  cases mode <;> rfl

/-- Settles O42; State.reset is the load of no byte. -/
theorem invariantHoldsAfterConstructionAndLoad : Obligations.InvariantHoldsAfterConstructionAndLoad := by
  have hload (c : Config) (bytes : List Byte) : ((State.construct c).loadBytes bytes).Inv :=
    ⟨Memory.writeBytes_wf bytes Config.loadBase (State.construct_wf c), controllerOk_construct_loadBytes c bytes⟩
  exact ⟨hload Config.default [], hload⟩

end Sys2Proof.Claims
end

section
/-!
SUPPORT. What an instruction does to memory (20_memory.md R43; 45_load_store.md R172, R173): a storing instruction writes one
byte, every other one leaves memory as it is.
-/

namespace Sys2Proof.Machine

open Sys2Proof.Claims

/-- Only STA and STX write memory (20_memory.md R43). -/
theorem Writes.mem {m : Mnemonic} {s t : State} (h : Writes m s t) (hm : m ∉ [.sta, .stx]) : t.mem = s.mem := by
  cases h with
  | memory hS => exact absurd hS hm
  | accumulator _ ht | index _ ht | flags _ ht | transfer _ ht | halt _ ht => exact (congrArg State.mem ht :)

/-- STA and STX write one byte and move past themselves. -/
theorem exec_store {i : Instr} {s t : State} (h : exec i s = .next t) (hi : i.mnemonic ∈ [.sta, .stx]) :
    ∃ (ea : Word) (v : Byte) (m : Mode), t = (s.write8 ea v).advance m := by
  cases i
  case staAbs | staAbsX | stxAbs =>
    injection h with h
    exact ⟨_, _, _, h.symm⟩
  all_goals exact absurd hi (by simp [Instr.mnemonic, Instr.form])

/-- A write of one byte leaves every other address as it reads (20_memory.md R43). -/
theorem sameOutside_write8_advance (s : State) (ea : Word) (v : Byte) (m : Mode) :
    sameOutside ea 1 s ((s.write8 ea v).advance m) := fun a ha => by
  have hne : a ≠ ea := by simpa using ha 0
  simp [hne]

theorem exec_wf {i : Instr} {s t : State} (h : exec i s = .next t) (hs : Memory.wf s.mem) : Memory.wf t.mem := by
  by_cases hi : i.mnemonic ∈ [.sta, .stx]
  · obtain ⟨ea, v, m, rfl⟩ := exec_store h hi
    exact Memory.write8_wf ea v hs
  · rw [(exec_writes h).mem hi]
    exact hs

theorem dispatch_wf {s t : State} (h : s.dispatch = .next t) (hs : Memory.wf s.mem) : Memory.wf t.mem := by
  rcases dispatch_cases h with ⟨rfl, _⟩ | ⟨_, i, _, hi⟩ | ⟨_, _, rfl⟩
  · exact hs
  · exact exec_wf hi hs
  · exact hs

theorem sameCpu_mem {s t : State} (h : s.sameCpu t) : t.mem = s.mem := (congrArg State.mem h :)

/-- Every step keeps the canonical form of memory. -/
theorem step_wf {s t : State} (h : step s = .next t) (hs : Memory.wf s.mem) : Memory.wf t.mem := by
  obtain ⟨_, hc | ⟨u, hu, hc⟩⟩ := step_cases h
  · rw [sameCpu_mem hc]
    exact hs
  · rw [sameCpu_mem hc]
    exact dispatch_wf hu hs

end Sys2Proof.Machine
end

section
/-!
SUPPORT. The debug controller's consistency, one equation per controller state, and that each of its transitions keeps it
(60_exceptions.md R232 to R240).
-/

namespace Sys2Proof.Machine

section
variable {s : State}

theorem controllerOk_running (hc : s.dbg.controller = .continuousRun) :
    s.controllerOk = true ↔ (s.dbg.debugFlag = true → s.dbg.mode = .debug) ∧ s.isHalted = false := by
  simp [State.controllerOk, hc, imp_iff_not_or]

theorem controllerOk_stepping {n : Nat} (hc : s.dbg.controller = .singleStep n) :
    s.controllerOk = true ↔ s.dbg.debugFlag = true ∧ s.dbg.mode = .debug ∧ s.isHalted = false := by
  cases hf : s.dbg.debugFlag <;> simp [State.controllerOk, hc, hf]

theorem controllerOk_paused (hc : s.dbg.controller = .pausedInteractive) :
    s.controllerOk = true ↔ s.dbg.debugFlag = true ∧ s.dbg.mode = .debug ∧ s.isHalted = false := by
  cases hf : s.dbg.debugFlag <;> simp [State.controllerOk, hc, hf]

theorem controllerOk_inspecting (hc : s.dbg.controller = .terminalInspection) :
    s.controllerOk = true ↔ s.dbg.mode = .debug ∧ s.isHalted = true := by
  cases hm : s.dbg.mode <;> simp [State.controllerOk, hc, hm]

theorem controllerOk_terminated (hc : s.dbg.controller = .terminated) :
    s.controllerOk = true ↔
      (s.dbg.debugFlag = true → s.dbg.mode = .debug) ∧ (s.isHalted = true ∨ s.dbg.mode = .debug) := by
  simp [State.controllerOk, hc, imp_iff_not_or]

end

/-- The controller's answer to a halt is consistent, so only a core left running has to be looked at (R224, R238). -/
theorem controllerOk_settle {u : State} (hflag : u.dbg.debugFlag = true → u.dbg.mode = .debug)
    (hrun : u.isHalted = false → u.controllerOk = true) : u.settle.controllerOk = true := by
  cases hh : u.isHalted with
  | false => simpa [State.settle, hh] using hrun hh
  | true =>
    simp only [State.settle, hh, if_true]
    have hk (c : ControllerState) : (u.setController c).isHalted = true := hh
    cases hm : u.dbg.mode with
    | debug => exact (controllerOk_inspecting (by simp [Debugger.atHalt, hm])).mpr ⟨hm, hk _⟩
    | run => exact (controllerOk_terminated (by simp [Debugger.atHalt, hm])).mpr ⟨hflag, .inl (hk _)⟩

/-- What a command does in PausedInteractive: the pausing ends for good, or the flag stays and the controller
stays, steps or ends (R234 to R237). -/
theorem pausedCommand_cases (d : Debugger) (line : Text) :
    ((d.pausedCommand line).controller = .continuousRun ∧ (d.pausedCommand line).debugFlag = false) ∨
    ((d.pausedCommand line).debugFlag = d.debugFlag ∧
      ((d.pausedCommand line).controller = d.controller ∨ (∃ n, (d.pausedCommand line).controller = .singleStep n) ∨
        (d.pausedCommand line).controller = .terminated)) := by
  unfold Debugger.pausedCommand
  split
  case h_1 n _ => exact .inr ⟨rfl, .inr (.inl ⟨n, rfl⟩)⟩
  case h_4 => exact .inl ⟨rfl, rfl⟩
  case h_5 => exact .inr ⟨rfl, .inr (.inr rfl)⟩
  all_goals exact .inr ⟨rfl, .inl rfl⟩

/-- What a command does in TerminalInspection: the controller stays or ends (R238). -/
theorem inspectionCommand_cases (d : Debugger) (line : Text) :
    (d.inspectionCommand line).controller = d.controller ∨ (d.inspectionCommand line).controller = .terminated := by
  unfold Debugger.inspectionCommand
  split
  · exact .inl rfl
  · split
    case h_3 => exact .inr rfl
    all_goals exact .inl rfl

section
variable {s : State} {d : Debugger}

theorem controllerOk_pausedCommand (hc : d.controller = .pausedInteractive) (h : (s.setDbg d).controllerOk = true)
    (line : Text) : (s.setDbg (d.pausedCommand line)).controllerOk = true := by
  obtain ⟨hflag, hmode, hrun⟩ := (controllerOk_paused hc).mp h
  have hmode' : (d.pausedCommand line).mode = .debug := (pausedCommand_mode d line).trans hmode
  rcases pausedCommand_cases d line with ⟨hrun', _⟩ | ⟨hflag', hstay | ⟨n, hstep⟩ | hend⟩
  · exact (controllerOk_running hrun').mpr ⟨fun _ => hmode', hrun⟩
  · exact (controllerOk_paused (hstay.trans hc)).mpr ⟨hflag'.trans hflag, hmode', hrun⟩
  · exact (controllerOk_stepping hstep).mpr ⟨hflag'.trans hflag, hmode', hrun⟩
  · exact (controllerOk_terminated hend).mpr ⟨fun _ => hmode', .inr hmode'⟩

theorem controllerOk_inspectionCommand (hc : d.controller = .terminalInspection)
    (h : (s.setDbg d).controllerOk = true) (line : Text) :
    (s.setDbg (d.inspectionCommand line)).controllerOk = true := by
  obtain ⟨hmode, hhalt⟩ := (controllerOk_inspecting hc).mp h
  have hmode' : (d.inspectionCommand line).mode = .debug := (inspectionCommand_mode d line).trans hmode
  rcases inspectionCommand_cases d line with hstay | hend
  · exact (controllerOk_inspecting (hstay.trans hc)).mpr ⟨hmode', hhalt⟩
  · exact (controllerOk_terminated hend).mpr ⟨fun _ => hmode', .inr hmode'⟩

/-- Reading a command keeps consistency if obeying one in the present controller state does. -/
theorem controllerOk_readCommand {obey : Debugger → Text → Debugger} (h : s.controllerOk = true)
    (hobey : ∀ d : Debugger, d.controller = s.dbg.controller → (s.setDbg d).controllerOk = true →
      ∀ line, (s.setDbg (obey d line)).controllerOk = true) :
    (s.setDbg (s.dbg.readCommand obey)).controllerOk = true := by
  unfold Debugger.readCommand
  split
  · exact h
  next line rest _ => exact hobey { s.dbg with commands := rest } rfl h line

end

/-- Every step keeps the controller consistent. -/
theorem step_controllerOk {s t : State} (h : step s = .next t) (hs : s.controllerOk = true) :
    t.controllerOk = true := by
  unfold step State.cycle at h
  split at h
  case h_1 hc => -- ContinuousRun pauses, or runs and meets a halt
    obtain ⟨hmode, hrun⟩ := (controllerOk_running hc).mp hs
    split at h
    next hflag =>
      injection h with h
      subst h
      exact (controllerOk_paused rfl).mpr ⟨hflag, hmode hflag, hrun⟩
    next =>
      obtain ⟨u, hu, rfl⟩ := andThen_next h
      rw [← dispatch_dbg hu] at hc hmode
      exact controllerOk_settle hmode fun hrun => (controllerOk_running hc).mpr ⟨hmode, hrun⟩
  case h_2 hc => -- SingleStep with no step left pauses
    injection h with h
    subst h
    exact (controllerOk_paused rfl).mpr ((controllerOk_stepping hc).mp hs)
  case h_3 n hc => -- SingleStep with steps left goes on, or meets a halt
    obtain ⟨hflag, hmode, _⟩ := (controllerOk_stepping hc).mp hs
    obtain ⟨u, hu, rfl⟩ := andThen_next h
    rw [← dispatch_dbg hu] at hflag hmode
    exact controllerOk_settle (fun _ => hmode) fun hrun => (controllerOk_stepping rfl).mpr ⟨hflag, hmode, hrun⟩
  all_goals
    injection h with h
    subst h
  case h_4 hc => exact controllerOk_readCommand hs fun d hd hok => controllerOk_pausedCommand (hd.trans hc) hok
  case h_5 hc => exact controllerOk_readCommand hs fun d hd hok => controllerOk_inspectionCommand (hd.trans hc) hok
  case h_6 => exact hs

end Sys2Proof.Machine
end

section
/-!
SUPPORT. A memory in canonical form is decided by what it reads: its cells are exactly the addresses that do not read 0x00,
each with its byte (20_memory.md R40, R50).
-/

namespace Sys2Proof.Machine

/-- A cell of a memory with rising addresses is the one its address reads. -/
theorem Memory.lookup_of_mem {m : Memory} (hs : m.Pairwise fun c d => c.1 < d.1) {c : Host.Cell} (hc : c ∈ m) :
    Memory.lookup m c.1 = c.2 := by
  induction m with
  | nil => exact absurd hc List.not_mem_nil
  | cons d rest ih =>
    obtain ⟨hd, hrest⟩ := List.pairwise_cons.mp hs
    rcases List.mem_cons.mp hc with rfl | hc
    · simp [Memory.lookup]
    · simpa [Memory.lookup, (hd c hc).ne] using ih hrest hc

/-- An address that does not read 0x00 is listed. -/
theorem Memory.mem_of_lookup_ne {m : Memory} {k : Nat} (h : Memory.lookup m k ≠ 0) : (k, Memory.lookup m k) ∈ m := by
  induction m with
  | nil => exact absurd rfl h
  | cons d rest ih =>
    by_cases hd : d.1 = k
    · subst hd
      simp [Memory.lookup]
    · simp only [Memory.lookup, hd, if_false] at h ⊢
      exact List.mem_cons_of_mem d (ih h)

/-- The cells of a canonical memory are cells of every memory that reads alike. -/
theorem Memory.subset_of_read8_eq {m m' : Memory} (hm : Memory.wf m)
    (h : ∀ a : Word, Memory.read8 m a = Memory.read8 m' a) : m ⊆ m' := by
  intro c hc
  obtain ⟨hlt, hne⟩ := hm.2 c hc
  have haddr : (BitVec.ofNat 16 c.1).toNat = c.1 := Nat.mod_eq_of_lt hlt
  have hread : Memory.lookup m' c.1 = c.2 := by
    have ha := h (BitVec.ofNat 16 c.1)
    rw [Memory.read8, Memory.read8, haddr, Memory.lookup_of_mem hm.1 hc] at ha
    exact ha.symm
  have hmem : (c.1, Memory.lookup m' c.1) ∈ m' := Memory.mem_of_lookup_ne (hread ▸ hne)
  rwa [hread] at hmem

/-- Two lists with rising addresses and the same cells are the same list. -/
theorem Memory.eq_of_subset {m m' : Memory} (hs : m.Pairwise fun c d => c.1 < d.1)
    (hs' : m'.Pairwise fun c d => c.1 < d.1) (h : m ⊆ m') (h' : m' ⊆ m) : m = m' := by
  have hirrefl : Std.Irrefl fun c d : Host.Cell => c.1 < d.1 := ⟨fun c => lt_irrefl c.1⟩
  have hantisymm : Std.Antisymm fun c d : Host.Cell => c.1 < d.1 := ⟨fun _ _ hcd hdc => absurd hdc hcd.asymm⟩
  exact List.Subset.antisymm_of_pairwise hs hs' h h'

end Sys2Proof.Machine
end

section
/-!
SUPPORT. What the step of a freely running machine does with the instruction it fetches (40_pipeline.md R100; 20_memory.md R50,
R54).
-/

namespace Sys2Proof.Machine

open Sys2Proof.Claims

/-- The three bytes from a written address upward: the one written and the two after it as they were. -/
theorem Memory.readBytes_write8 (m : Memory) (a : Word) (v : Byte) :
    Memory.readBytes (Memory.write8 m a v) a 3 = [v, Memory.read8 m (a + 1), Memory.read8 m (a + 1 + 1)] := by
  have h1 : a + 1 ≠ a := by bv_omega
  have h2 : a + 1 + 1 ≠ a := by bv_omega
  simp only [Memory.readBytes, Memory.read8_write8, if_true, if_neg h1, if_neg h2]

/-- When the machine runs freely, its step runs the instruction it fetches (40_pipeline.md R100). -/
theorem step_fetched {s : State} {i : Instr} (h : runsFreely s) (hf : s.fetch = .ok i) :
    step s = andThen (exec i s) State.settle := by
  obtain ⟨hrun, hc, hflag⟩ := h
  rw [step_free hc hflag, dispatch_fetched hrun hf]

/-- BRK is fetched where memory reads 0x00, if it is implemented (20_memory.md R50). -/
theorem fetch_zero {s : State} (hi : ⟨.brk, .imp⟩ ∉ s.omitted) (h0 : s.read8 s.pc = 0) : s.fetch = .ok .brk := by
  have hrow : romRow? s.omitted 0 = some ⟨⟨.brk, .imp⟩, 0⟩ := romRow_some.mpr ⟨by decide, rfl, hi⟩
  exact State.fetch_ok.mpr ⟨_, h0 ▸ hrow, rfl⟩

/-- A step that fetches STA Absolute stores A at its operand and moves past itself (R172). -/
theorem step_staAbs {s : State} {ea : Word} (h : runsFreely s) (hf : s.fetch = .ok (.staAbs ea)) :
    step s = .next ((s.write8 ea s.a).advance .abs) := by
  have hrun : ((s.write8 ea s.a).advance .abs).run = .running := h.1
  rw [step_fetched h hf]
  exact congrArg Host.Outcome.next (settle_running hrun)

end Sys2Proof.Machine
end

section
/-! The family 20_memory.md. -/

namespace Sys2Proof.Claims

open Sys2Proof.Machine

/-- Settles O43: memory by `step_wf`, the controller by `step_controllerOk`. -/
theorem everyStepKeepsTheInvariant : Obligations.EveryStepKeepsTheInvariant := fun _ _ ⟨hmem, hok⟩ h =>
  ⟨step_wf h hmem, step_controllerOk h hok⟩

/-- Settles O7: each memory's cells are cells of the other, and both are sorted. -/
theorem canonicalMemoriesReadingAlikeAreEqual : Obligations.CanonicalMemoriesReadingAlikeAreEqual := fun _ _ hm hm' h =>
  Memory.eq_of_subset hm.1 hm'.1 (Memory.subset_of_read8_eq hm h) (Memory.subset_of_read8_eq hm' fun a => (h a).symm)

/-- Settles O8; 0xFFFF + 1 is 0x0000. -/
theorem read16IsLittleEndianAndWraps : Obligations.Read16IsLittleEndianAndWraps := by
  intro m a
  have hword : (Memory.read16 m a).toNat = (Memory.read8 m a).toNat + 256 * (Memory.read8 m (a + 1)).toNat :=
    wordOf_toNat _ _
  refine ⟨hword, ?_⟩
  rintro rfl
  exact hword

/-- Settles O31, by `Writes.mem`. -/
theorem onlyStoresChangeMemory : Obligations.OnlyStoresChangeMemory := fun _ _ _ h hi a =>
  congrArg (fun m => Memory.read8 m a) ((exec_writes h).mem hi)

/-- Settles O32: each of the three forms is one write at its own address. -/
theorem storesChangeOnlyTheirOwnByte : Obligations.StoresChangeOnlyTheirOwnByte := by
  intro i s t base ea h hform
  rcases hform with ⟨rfl | rfl, rfl⟩ | ⟨rfl, rfl⟩
  all_goals
    injection h with h
    subst h
    exact ⟨sameOutside_write8_advance s _ _ _, rfl⟩

/-- Settles O37: the empty list reads 0x00 everywhere, and the fetch of 0x00 gives BRK, which halts. -/
theorem runningIntoUnwrittenMemoryHaltsByBrk : Obligations.RunningIntoUnwrittenMemoryHaltsByBrk := by
  refine ⟨fun _ _ => rfl, fun s hfree hi h0 => ?_⟩
  have hstep : step s = .next (s.halt .brk).settle := step_fetched hfree (fetch_zero hi h0)
  exact ⟨_, hstep, rfl, rfl⟩

/-- Settles O38, by `step_next`. -/
theorem everyStepHasANextState : Obligations.EveryStepHasANextState := step_next

/-- Settles O44: the three bytes at the new PC are the stored one and the two after it. -/
theorem storedByteIsFetchedByTheNextStep : Obligations.StoredByteIsFetchedByTheNextStep := by
  intro s i rest hfree hf hd
  refine ⟨_, step_staAbs hfree hf, s.nextPc_abs, State.fetch_of_decode (rest := rest) ?_⟩
  have h4 : s.pc + 3 + 1 = s.pc + 4 := BitVec.add_assoc s.pc 3 1
  have h5 : s.pc + 4 + 1 = s.pc + 5 := BitVec.add_assoc s.pc 4 1
  rw [State.advance_pc, State.nextPc_abs, State.write8_pc, State.advance_mem, State.write8_mem, Memory.readBytes_write8,
    h4, h5]
  exact hd

/-- Settles O45: the address is the one fetched, whatever the store leaves there. -/
theorem storeOntoItsOwnOperandKeepsItsAddress : Obligations.StoreOntoItsOwnOperandKeepsItsAddress := by
  intro s hfree hf
  exact ⟨_, step_staAbs hfree hf, (Memory.read8_write8 _ _ _ _).trans (if_pos rfl),
    fun a ha => (Memory.read8_write8 _ _ _ _).trans (if_neg ha)⟩

end Sys2Proof.Claims
end

section
/-!
SUPPORT. The opcode ROM in both directions, the encoder and the decoder of bytes, each said once: what the ROM gives for a pair,
when a byte is an unknown opcode, how long an encoding is (30_encoding.md R61, R66 to R70).
-/

namespace Sys2Proof

/-- The opcode of a pair is the byte its row of the ROM has (30_encoding.md R66, R68). -/
theorem opcodeOf_eq_some {f : Form} {b : Byte} : opcodeOf? f = some b ↔ ⟨f, b⟩ ∈ opcodeRom := by
  constructor
  · intro h
    obtain ⟨r, hr, rfl⟩ := Option.map_eq_some_iff.mp h
    obtain rfl : r.form = f := by simpa using List.find?_some hr
    exact List.mem_of_find?_eq_some hr
  · exact fun h => rom_opcodeOf _ h

/-- Every instruction has a row of the ROM. -/
theorem instr_row_mem (i : Instr) : ⟨i.form, i.opcode⟩ ∈ opcodeRom := opcodeOf_eq_some.mp (opcodeOf_form i)

/-- The opcode of an instruction of a row is the row's. -/
theorem opcode_of_row {i : Instr} {r : RomRow} (hr : r ∈ opcodeRom) (hf : i.form = r.form) : i.opcode = r.opcode :=
  Option.some.inj ((opcodeOf_form i).symm.trans (hf ▸ rom_opcodeOf r hr))

theorem wellFormed_iff {omitted : List Form} {i : Instr} : i.wellFormed omitted = true ↔ i.form ∉ omitted := by
  simp [Instr.wellFormed]

/-- An instruction is its pair and its operand. -/
theorem instr_ext {i j : Instr} (hf : i.form = j.form) (ho : i.operand = j.operand) : i = j :=
  Option.some.inj ((instrOf_form i).symm.trans (hf ▸ ho ▸ instrOf_form j))

/-- Every pair of the ROM, with every operand that fits its mode, is the pair and operand of an instruction. -/
theorem exists_instr {r : RomRow} (hr : r ∈ opcodeRom) {w : Word} (hw : r.form.mode.fits w) :
    ∃ i : Instr, i.form = r.form ∧ i.operand = w := by
  obtain ⟨i, hi, _⟩ := instr_of_row hr w
  exact ⟨i, form_operand_of_instrOf hi hw⟩

theorem length_operandBytesOf (m : Mode) (w : Word) : (operandBytesOf m w).length = m.operandBytes := by
  cases m <;> rfl

/-- The length of an encoding (30_encoding.md R61). -/
theorem length_encode (i : Instr) : (encode i).length = 1 + i.mode.operandBytes := by
  rw [encode_eq, List.length_cons, length_operandBytesOf, Nat.add_comm]

theorem length_encode_le (i : Instr) : (encode i).length ≤ 65536 := by
  rw [length_encode]
  cases i.mode <;> decide

/-- Decoding an encoding, whatever follows it. -/
theorem decode_encode {omitted : List Form} {i : Instr} (h : i.wellFormed omitted = true) (rest : List Byte) :
    decode omitted (encode i ++ rest) = .ok (i, rest) := by
  have hoperand : takeOperand i.form.mode (operandBytesOf i.form.mode i.operand ++ rest) = some (i.operand, rest) :=
    takeOperand_bytes (operand_fits i) rest
  simp only [encode_eq, List.cons_append, decode, romRow_opcode h, Instr.mode, hoperand, instrOf_form]

theorem encode_injective {i j : Instr} (h : encode i = encode j) : i = j := by
  have hi := decode_encode (omitted := []) (i := i) rfl []
  rw [h, decode_encode rfl] at hi
  injection hi with hi
  exact (congrArg Prod.fst hi).symm

/-- The bytes of what was decoded. -/
theorem encode_decode {omitted : List Form} {bytes rest : List Byte} {i : Instr}
    (h : decode omitted bytes = .ok (i, rest)) : encode i ++ rest = bytes ∧ i.wellFormed omitted = true := by
  obtain ⟨b, r, w, more, rfl, hr, ht, hi⟩ := decode_ok h
  obtain ⟨hmem, rfl, hnot⟩ := romRow_some.mp hr
  obtain ⟨hmore, hfits⟩ := takeOperand_some ht
  obtain ⟨hf, rfl⟩ := form_operand_of_instrOf hi hfits
  refine ⟨?_, wellFormed_iff.mpr (hf ▸ hnot)⟩
  rw [encode_eq, Instr.mode, hf, opcode_of_row hmem hf, List.cons_append, hmore]

/-- A byte is unknown exactly when the implementation has no row for it (30_encoding.md R67, R70). -/
theorem decode_unknown {omitted : List Form} {b : Byte} {rest : List Byte} :
    decode omitted (b :: rest) = .error (.unknownOpcode b) ↔ romRow? omitted b = none := by
  cases hr : romRow? omitted b with
  | none => simp [decode, hr]
  | some r =>
    cases ht : takeOperand r.form.mode rest with
    | none => simp [decode, hr, ht]
    | some p =>
      obtain ⟨i, hi, _⟩ := instr_of_row (romRow_some.mp hr).1 p.1
      simp [decode, hr, ht, hi]

/-- The implementation has a row for a byte exactly when one of its instructions has that opcode. -/
theorem romRow_ne_none {omitted : List Form} {b : Byte} :
    romRow? omitted b ≠ none ↔ ∃ i : Instr, i.wellFormed omitted = true ∧ i.opcode = b := by
  constructor
  · intro h
    obtain ⟨r, hr⟩ := Option.ne_none_iff_exists'.mp h
    obtain ⟨hmem, rfl, hnot⟩ := romRow_some.mp hr
    obtain ⟨i, _, hf⟩ := instr_of_row hmem 0
    exact ⟨i, wellFormed_iff.mpr (hf ▸ hnot), opcode_of_row hmem hf⟩
  · rintro ⟨i, hi, rfl⟩
    simp [romRow_opcode hi]

end Sys2Proof
end

section
/-!
SUPPORT. Bytes written and read back, and the assembler and the disassembler each said once: what the one writes for a line or a
program, and what the other renders at a row's opcode (30_encoding.md R74 to R86).
-/

namespace Sys2Proof.Machine

/-- Bytes just written are read back. -/
theorem Memory.readBytes_writeBytes (m : Memory) (a : Word) {bytes : List Byte} (h : bytes.length ≤ 65536) :
    Memory.readBytes (Memory.writeBytes m a bytes) a bytes.length = bytes := by
  apply List.ext_getElem (Memory.length_readBytes _ _ _)
  intro k hk hk'
  rw [Memory.getElem_readBytes, (Memory.read8_writeBytes bytes m a h).1 k hk']

/-- Writing what memory holds already leaves every address as it reads. -/
theorem Memory.read8_writeBytes_self {m : Memory} {a : Word} {bytes : List Byte} (h : bytes.length ≤ 65536)
    (hm : Memory.readBytes m a bytes.length = bytes) (b : Word) :
    Memory.read8 (Memory.writeBytes m a bytes) b = Memory.read8 m b := by
  obtain ⟨hwritten, hframe⟩ := Memory.read8_writeBytes bytes m a h
  by_cases hb : ∃ k, k < bytes.length ∧ b = a + BitVec.ofNat 16 k
  · obtain ⟨k, hk, rfl⟩ := hb
    have hread := Memory.getElem_readBytes m bytes.length a k (by simpa using hk)
    rw [hwritten k hk, ← hread]
    simp only [hm]
  · exact hframe b fun k hk e => hb ⟨k, hk, e⟩

/-- The instruction of the implementation that a line reads as. -/
def readsAs (omitted : List Form) (line : Text) (i : Instr) : Prop :=
  parseLine line = some (i.form, i.operand) ∧ i.wellFormed omitted = true

theorem readsAs_unique {omitted : List Form} {line : Text} {i j : Instr} (hi : readsAs omitted line i)
    (hj : readsAs omitted line j) : i = j := by
  have h := Option.some.inj (hi.1.symm.trans hj.1)
  exact instr_ext (congrArg Prod.fst h) (congrArg Prod.snd h)

/-- The canonical text of an instruction reads as it. -/
theorem readsAs_lineText {omitted : List Form} {i : Instr} (h : i.wellFormed omitted = true) :
    readsAs omitted (lineText i.form i.operand) i := ⟨parseLine_text (operand_fits i), h⟩

/-- A line reads as no instruction exactly when each pair it reads as is omitted or in no row of the ROM. -/
theorem not_readsAs_iff {omitted : List Form} {line : Text} :
    (¬∃ i, readsAs omitted line i) ↔ ∀ (f : Form) (operand : Word), parseLine line = some (f, operand) →
      f ∈ omitted ∨ ∀ row ∈ opcodeRom, row.form ≠ f := by
  constructor
  · intro h f w hp
    by_contra hc
    push Not at hc
    obtain ⟨hnot, r, hr, rfl⟩ := hc
    obtain ⟨i, hf, rfl⟩ := exists_instr hr (parseLine_fits hp)
    exact h ⟨i, hf ▸ hp, wellFormed_iff.mpr (hf ▸ hnot)⟩
  · rintro h ⟨i, hp, hw⟩
    rcases h _ _ hp with hin | hno
    · exact wellFormed_iff.mp hw hin
    · exact hno _ (instr_row_mem i) rfl

section
variable {omitted : List Form} {m : Memory} {cursor : Word} {line : Text}

/-- The encoder on a line that reads as an instruction (30_encoding.md R74, R76). -/
theorem assembleLine_of_readsAs {i : Instr} (h : readsAs omitted line i) :
    assembleLine omitted m cursor line =
      .ok (Memory.writeBytes m cursor (encode i), cursor + BitVec.ofNat 16 (encode i).length) := by
  rcases assembleLine_spec omitted m cursor line with ⟨j, hp, hw, hok⟩ | ⟨hno, _⟩
  · rw [hok, readsAs_unique ⟨hp, hw⟩ h]
  · exact absurd ⟨i, h⟩ hno

/-- The encoder on a line that reads as none (30_encoding.md R75). -/
theorem assembleLine_of_not_readsAs (h : ¬∃ i, readsAs omitted line i) :
    assembleLine omitted m cursor line = .error (.malformedOperand line) := by
  rcases assembleLine_spec omitted m cursor line with ⟨i, hp, hw, _⟩ | ⟨_, herr⟩
  · exact absurd ⟨i, hp, hw⟩ h
  · exact herr

theorem assembleLine_error_iff :
    assembleLine omitted m cursor line = .error (.malformedOperand line) ↔ ¬∃ i, readsAs omitted line i := by
  refine ⟨?_, assembleLine_of_not_readsAs⟩
  rintro h ⟨i, hi⟩
  rw [assembleLine_of_readsAs hi] at h
  cases h

end

/-- The encoder on several lines: the encodings of the lines before the first blank one, written as one byte stream
(30_encoding.md R86). -/
theorem assembleLines_ok {omitted : List Form} (lines : List Text) : ∀ (m m' : Memory) (cursor : Word),
    (∃ next, assembleLines omitted m cursor lines = .ok (m', next)) ↔
      ∃ program, List.Forall₂ (readsAs omitted) (lines.takeWhile fun l => trimBlanks l ≠ []) program ∧
        m' = Memory.writeBytes m cursor (program.flatMap encode) := by
  induction lines with
  | nil => exact fun m m' cursor => by simp [assembleLines, Memory.writeBytes, eq_comm (a := m)]
  | cons line rest ih =>
    intro m m' cursor
    by_cases hblank : trimBlanks line = []
    · simp [assembleLines, hblank, Memory.writeBytes, eq_comm (a := m)]
    · by_cases hline : ∃ i, readsAs omitted line i
      · obtain ⟨i, hi⟩ := hline
        have hcons : ∀ j, readsAs omitted line j ↔ j = i := fun j => ⟨fun h => readsAs_unique h hi, fun h => h ▸ hi⟩
        simp [assembleLines, hblank, assembleLine_of_readsAs hi, ih, List.forall₂_cons_left_iff, hcons,
          Memory.writeBytes_append]
      · have hno : ∀ i, ¬readsAs omitted line i := not_exists.mp hline
        simp [assembleLines, hblank, assembleLine_of_not_readsAs hline, List.forall₂_cons_left_iff, hno]

/-- The index after an instruction is the one its encoding's length further (30_encoding.md R81). -/
theorem nextIndex_eq (i : Instr) (a : Word) :
    a + 1 + BitVec.ofNat 16 i.mode.operandBytes = a + BitVec.ofNat 16 (encode i).length := by
  rw [offset_succ, length_encode, Nat.add_comm]

/-- Everything the disassembler does at the opcode of a row: memory holds the encoding of an instruction of that row there, and
its text and the index past it are the answer (30_encoding.md R78 to R81). -/
theorem disassemble_row {omitted : List Form} {m : Memory} {index : Word} {r : RomRow}
    (h : romRow? omitted (Memory.read8 m index) = some r) :
    ∃ i : Instr, i.form = r.form ∧ i.wellFormed omitted = true ∧
      Memory.readBytes m index (encode i).length = encode i ∧
      disassemble omitted m index = (lineText i.form i.operand, index + BitVec.ofNat 16 (encode i).length) := by
  obtain ⟨i, rest, hd, hrest, hi, hf⟩ := decode_readBytes 0 h
  obtain ⟨hbytes, hw⟩ := encode_decode hd
  obtain ⟨_, ho⟩ := form_operand_of_instrOf hi (operandAt_fits m (index + 1) r.form.mode)
  obtain rfl := List.length_eq_zero_iff.mp hrest
  refine ⟨i, hf, hw, ?_, ?_⟩
  · rw [length_encode, Instr.mode, hf, ← Nat.add_zero (1 + _), ← hbytes, List.append_nil]
  · rw [← nextIndex_eq, Instr.mode, ho, hf]
    simp only [disassemble, h]

/-- The disassembler where memory holds an encoding. -/
theorem disassemble_encode {omitted : List Form} {m : Memory} {index : Word} {i : Instr}
    (hw : i.wellFormed omitted = true) (h : Memory.readBytes m index (encode i).length = encode i) :
    disassemble omitted m index = (lineText i.form i.operand, index + BitVec.ofNat 16 (encode i).length) := by
  have hop : Memory.read8 m index = i.opcode := by
    rw [length_encode, Nat.add_comm, Memory.readBytes_succ, encode_eq] at h
    exact (List.cons.inj h).1
  obtain ⟨j, hf, _, hj, hd⟩ := disassemble_row (hop ▸ romRow_opcode hw)
  have hlen : (encode j).length = (encode i).length := by rw [length_encode, length_encode, Instr.mode, hf, Instr.mode]
  obtain rfl : j = i := encode_injective (by rw [← hj, hlen, h])
  exact hd

/-- An index after an instruction, as a number. -/
theorem toNat_nextIndex (i : Instr) (a : Word) :
    (a + BitVec.ofNat 16 (encode i).length).toNat = (a.toNat + 1 + i.mode.operandBytes) % 65536 := by
  simp [length_encode, BitVec.toNat_add, Nat.add_assoc]

/-- A byte as a two's-complement number (30_encoding.md R65). -/
theorem toInt_byte (b : Byte) : b.toInt = if b.getLsbD 7 then (b.toNat : Int) - 256 else b.toNat :=
  BitVec.toInt_eq_msb_cond b

theorem displacement_toInt (d : Byte) : (displacement d).toInt = d.toInt :=
  BitVec.toInt_signExtend_of_le (by decide)

/-- Only the six branches have Relative mode (30_encoding.md R65). -/
theorem mode_eq_rel_iff (i : Instr) : i.mode = .rel ↔ i.mnemonic ∈ [.bcc, .bcs, .beq, .bne, .bmi, .bpl] := by
  cases i <;> simp [Instr.mode, Instr.mnemonic, Instr.form]

end Sys2Proof.Machine
end

section
/-! The family 30_encoding.md. -/

namespace Sys2Proof.Claims

open Sys2Proof.Machine

/-- Settles O2, by `decode_encode`. -/
theorem decodeOfEncodeIsTheInstruction : Obligations.DecodeOfEncodeIsTheInstruction :=
  fun _ _ rest h => decode_encode h rest

/-- Settles O3, by `encode_decode`. -/
theorem encodeOfDecodeIsTheBytes : Obligations.EncodeOfDecodeIsTheBytes := fun _ _ _ _ h => encode_decode h

/-- Settles O55: the line writes the instruction's encoding, and the decoder renders an encoding as its text. -/
theorem disassemblyOfAssembledTextIsTheText : Obligations.DisassemblyOfAssembledTextIsTheText := by
  intro omitted i m cursor hw
  have hbytes := Memory.readBytes_writeBytes m cursor (length_encode_le i)
  exact ⟨_, _, assembleLine_of_readsAs (readsAs_lineText hw), disassemble_encode hw hbytes, toNat_nextIndex i cursor,
    hbytes⟩

/-- Settles O56: the text is that of the instruction whose encoding memory holds there, so the line writes what is there. -/
theorem assemblyOfDisassembledBytesIsTheBytes : Obligations.AssemblyOfDisassembledBytesIsTheBytes := by
  intro omitted m index h
  obtain ⟨r, hr⟩ := Option.ne_none_iff_exists'.mp h
  obtain ⟨i, _, hw, hbytes, hd⟩ := disassemble_row hr
  rw [hd]
  exact ⟨_, assembleLine_of_readsAs (readsAs_lineText hw), Memory.read8_writeBytes_self (length_encode_le i) hbytes⟩

/-- Settles O4: both sides say that the implementation has no row for the byte. -/
theorem unknownOpcodesAreExactlyTheBytesOutsideTheRom : Obligations.UnknownOpcodesAreExactlyTheBytesOutsideTheRom := by
  intro omitted b rest
  rw [decode_unknown, ← not_iff_not, ← ne_eq, romRow_ne_none]
  simp [encode_eq]

/-- Settles O5, by `opcodeOf_eq_some` and `romRow_some`. -/
theorem romDirectionsAreMutuallyInverse : Obligations.RomDirectionsAreMutuallyInverse := by
  intro omitted f b hf
  rw [opcodeOf_eq_some, romRow_some]
  simp [hf]

/-- Settles O9, by `Memory.read8_writeBytes`; the load writes nothing but memory. -/
theorem loadPlacesEachByteFrom8000Upward : Obligations.LoadPlacesEachByteFrom8000Upward := by
  intro s bytes h
  obtain ⟨hwritten, hframe⟩ := Memory.read8_writeBytes bytes s.mem Config.loadBase h
  exact ⟨hwritten, hframe, rfl⟩

/-- Settles O11, from the operand `State.fetch_parts` gives, mode by mode. -/
theorem fetchedOperandsComeFromTheBytesAfterTheOpcode : Obligations.FetchedOperandsComeFromTheBytesAfterTheOpcode := by
  intro s i h
  obtain ⟨_, ho⟩ := State.fetch_parts h
  rw [ho]
  cases i.mode <;> exact ⟨rfl, rfl⟩

/-- Settles O13: the operand is O11's; the target is the one of a taken branch in `State.branch_spec`. -/
theorem relativeOperandIsASignedDisplacement : Obligations.RelativeOperandIsASignedDisplacement := by
  refine ⟨fun s i h hm => ?_, mode_eq_rel_iff⟩
  have hoperand := fetchedOperandsComeFromTheBytesAfterTheOpcode s i h
  rw [hm] at hoperand ⊢
  obtain ⟨ho, hlen⟩ := hoperand
  intro byte1 disp
  have hdisp : byte1.toInt = disp := toInt_byte byte1
  obtain ⟨_, htarget⟩ := s.branch_spec true byte1
  rw [← hdisp]
  exact ⟨ho, displacement_toInt byte1, BitVec.le_toInt byte1, Int.le_of_lt_add_one (BitVec.toInt_lt), htarget, hlen⟩

/-- Settles O57, by `assembleLine_error_iff`. -/
theorem assemblerRejectsExactlyTheAbsentPairs : Obligations.AssemblerRejectsExactlyTheAbsentPairs :=
  fun _ _ _ _ => assembleLine_error_iff.trans not_readsAs_iff

/-- Settles O59, by `assembleLines_ok`. -/
theorem assemblyLoadSucceedsOnlyOnGoodLines : Obligations.AssemblyLoadSucceedsOnlyOnGoodLines := by
  intro s t lines
  constructor
  · intro h
    unfold State.loadAssembly at h
    split at h
    · cases h
    · rename_i m next hm
      injection h with h
      obtain ⟨program, hp, rfl⟩ := (assembleLines_ok lines _ _ _).mp ⟨next, hm⟩
      exact ⟨program, hp, h.symm⟩
  · rintro ⟨program, hp, rfl⟩
    obtain ⟨next, hm⟩ := (assembleLines_ok lines s.mem _ Config.loadBase).mpr ⟨program, hp, rfl⟩
    simp only [State.loadAssembly, hm]
    rfl

/-- Settles O1: each word is the encoding of its instruction, so O2 decodes it; 0x02 has no row. -/
theorem tableWordsDecodeToTheirInstructions : Obligations.TableWordsDecodeToTheirInstructions :=
  ⟨decode_encode (i := .adcImm 0x50) rfl [], decode_encode (i := .sbcAbsX 0x1234) rfl [],
    decode_encode (i := .eorAbs 0x1234) rfl [], decode_encode (i := .ror) rfl [], decode_encode (i := .cmpImm 0x20) rfl [],
    decode_encode (i := .ldaImm 0x05) rfl [0x8D, 0x00, 0x90], decode_encode (i := .staAbs 0x9000) rfl [],
    decode_encode (i := .inx) rfl [], decode_encode (i := .sec) rfl [], decode_encode (i := .bcc 0x05) rfl [],
    decode_encode (i := .jmp 0x1234) rfl [], decode_encode (i := .brk) rfl [], decode_unknown.mpr rfl⟩

/-- Settles O6, by `length_encode`. -/
theorem addressingModeFixesTheLength : Obligations.AddressingModeFixesTheLength :=
  fun i => ⟨by cases i.mode <;> rfl, length_encode i⟩

/-- Settles O58: at a row's opcode the next index is the one of `disassemble_row`, and a mode has at most two operand bytes. -/
theorem disassemblerAlwaysAdvances : Obligations.DisassemblerAlwaysAdvances := by
  intro omitted m index
  refine ⟨fun h => by simp [disassemble, h, Config.placeholder], fun r h => ?_, ?_⟩
  · obtain ⟨i, hf, _, _, hd⟩ := disassemble_row h
    rw [hd, toNat_nextIndex, Instr.mode, hf]
  · cases h : romRow? omitted (Memory.read8 m index) with
    | none => exact .inl (by simp [disassemble, h])
    | some r =>
      obtain ⟨i, _, _, _, hd⟩ := disassemble_row h
      rw [hd, length_encode]
      cases i.mode
      · exact .inl rfl
      · exact .inl rfl
      · exact .inr (.inl rfl)
      · exact .inr (.inl rfl)
      · exact .inr (.inr rfl)
      · exact .inr (.inr rfl)

end Sys2Proof.Claims
end

section
/-!
SUPPORT. What a step does to a halted core, what the controller answers to a halt, what `setNZ` and the indexed
address are, and that no sequential instruction reads PC
(40_pipeline.md R103, R111, R118; 60_exceptions.md R224, R233).
-/

namespace Sys2Proof.Machine

open Sys2Proof.Claims

theorem sameCpu_run {s t : State} (h : s.sameCpu t) : t.run = s.run := (congrArg State.run h :)

/-- A step of a halted core leaves the CPU as it is, whatever the controller does (40_pipeline.md R118). -/
theorem step_halted {s t : State} {r : HaltReason} (hs : s.run = .halted r) (h : step s = .next t) : s.sameCpu t := by
  obtain ⟨_, hc | ⟨u, hu, hc⟩⟩ := step_cases h
  · exact hc
  · rw [dispatch_halted hs] at hu
    injection hu with hu
    exact hu ▸ hc

/-- So does every run of one. -/
theorem run_halted {n : Nat} {s t : State} {r : HaltReason} (hs : s.run = .halted r) (h : core.run n s = .next t) :
    s.sameCpu t := by
  refine run_induction (R := fun s t => s.run = .halted r → s.sameCpu t) (fun _ _ => rfl) ?_ h hs
  intro s u t hstep hrest hs
  have hu : s.sameCpu u := step_halted hs hstep
  exact sameCpu_trans hu (hrest ((sameCpu_run hu).trans hs))

theorem atHalt_eq (d : Debugger) :
    d.atHalt = if d.mode = .debug then .terminalInspection else .terminated := by
  unfold Debugger.atHalt
  cases d.mode <;> rfl

/-- After a dispatcher step that leaves the core halted, for whatever reason, only the controller moves (92 D19). -/
theorem settle_notRunning {t : State} (h : t.run ≠ .running) :
    t.settle = t.setController (if t.dbg.mode = .debug then .terminalInspection else .terminated) := by
  cases hr : t.run with
  | running => exact absurd hr h
  | halted r => rw [settle_halted hr, atHalt_eq]

/-- When the machine runs freely and no row of the implementation has the byte at PC, its step is the halt (R103). -/
theorem step_unknown {s : State} (h : runsFreely s) (hr : romRow? s.omitted (s.read8 s.pc) = none) :
    step s = .next (s.halt (.unknownOpcode (s.read8 s.pc))).settle := by
  obtain ⟨hrun, hc, hflag⟩ := h
  rw [step_free hc hflag, dispatch_unknown hrun hr]
  rfl

/-- The implementation has no row for a byte that starts the encoding of none of its instructions. -/
theorem romRow_eq_none {omitted : List Form} {b : Byte}
    (h : ∀ i : Instr, i.wellFormed omitted = true → (encode i).head? ≠ some b) : romRow? omitted b = none := by
  by_contra hr
  obtain ⟨i, hi, rfl⟩ := romRow_ne_none.mp hr
  exact h i hi (by rw [encode_eq, List.head?_cons])

theorem setNZ_signsOf (s : State) (r : Byte) : signsOf r (s.setNZ r) := by
  refine ⟨s.setNZ_bit r 7, ?_⟩
  rw [zero, State.setNZ_bit]
  exact beq_iff_eq

theorem setNZ_keepsBitsBut (s : State) (r : Byte) : keepsBitsBut [7, 1] s (s.setNZ r) := setANZ_keepsBitsBut s r

theorem toNat_nextPc (s : State) (m : Mode) : (s.nextPc m).toNat = (s.pc.toNat + 1 + m.operandBytes) % 65536 := by
  simp [State.nextPc, BitVec.toNat_add]

/-- The indexed address as a number (40_pipeline.md R108). -/
theorem toNat_absXAddress (s : State) (base : Word) :
    (s.absXAddress base).toNat = (base.toNat + s.x.toNat) % 65536 := by
  have hx : s.x.toNat < 65536 := by omega
  rw [State.absXAddress, BitVec.toNat_add, BitVec.toNat_setWidth, Nat.mod_eq_of_lt hx]

/-- No effect of a sequential instruction reads PC: from any other PC it does the same, and moves past itself there
(40_pipeline.md R111). -/
theorem exec_setPc {i : Instr} (hi : i.mnemonic ∉ [.bcc, .bcs, .beq, .bne, .bmi, .bpl, .jmp, .brk]) (s : State)
    (q : Word) : exec i (s.setPc q) = andThen (exec i s) fun t => t.setPc ((s.setPc q).nextPc i.mode) := by
  cases i
  case bcc | bcs | beq | bne | bmi | bpl | jmp | brk => exact absurd hi (by simp [Instr.mnemonic, Instr.form])
  -- what is left ends in `advance`, after an effect on the other parts of the state
  all_goals rfl

/-- A sequential instruction leaves PC at the address after it (40_pipeline.md R111). -/
theorem exec_pc {i : Instr} {s t : State} (h : exec i s = .next t)
    (hi : i.mnemonic ∉ [.bcc, .bcs, .beq, .bne, .bmi, .bpl, .jmp, .brk]) : t.pc = s.nextPc i.mode := by
  have hsame : exec i s = .next (t.setPc (s.nextPc i.mode)) := h ▸ exec_setPc hi s s.pc
  injection h.symm.trans hsame with ht
  exact (congrArg State.pc ht :)

end Sys2Proof.Machine
end

section
/-! The family 40_pipeline.md. -/

namespace Sys2Proof.Claims

open Sys2Proof.Machine

/-- Settles O39, by `run_halted`. -/
theorem haltedIsForever : Obligations.HaltedIsForever := by
  intro n s t r hs h
  have hcpu : s.sameCpu t := run_halted hs h
  exact ⟨(sameCpu_run hcpu).trans hs, hcpu⟩

/-- Settles O10; a register written before N and Z is the same as one written after them. -/
theorem setNZWritesNegativeAndZeroAlone : Obligations.SetNZWritesNegativeAndZeroAlone := fun s r =>
  ⟨⟨setNZ_signsOf s r, setNZ_keepsBitsBut s r, rfl⟩, rfl, rfl⟩

/-- Settles O12: the operand is O11's, and 0xFFFF + 0xFF wraps to 0x00FE. -/
theorem absoluteIndexedAddressAddsXAndWraps : Obligations.AbsoluteIndexedAddressAddsXAndWraps := by
  refine ⟨fun s i h hm => ?_, fun s hx => ?_⟩
  · have hoperand := fetchedOperandsComeFromTheBytesAfterTheOpcode s i h
    rw [hm] at hoperand ⊢
    obtain ⟨ho, hlen⟩ := hoperand
    exact ⟨by rw [toNat_absXAddress, ho], hlen⟩
  · rw [State.absXAddress, hx]
    rfl

/-- Settles O14, by `exec_pc` and `exec_setPc`. -/
theorem sequentialInstructionsMovePcPastThemselves : Obligations.SequentialInstructionsMovePcPastThemselves := by
  intro i s t h hi
  refine ⟨by rw [exec_pc h hi, toNat_nextPc], fun q => ?_⟩
  have hq := exec_setPc hi s q
  rw [h] at hq
  exact hq

/-- Settles O36: the byte has no row, so the step is the halt and the controller's answer to it. -/
theorem unknownOpcodeHaltsAndChangesNothingElse : Obligations.UnknownOpcodeHaltsAndChangesNothingElse := by
  intro s hfree h
  have hhalt : (s.halt (.unknownOpcode (s.read8 s.pc))).run ≠ .running := nofun
  rw [step_unknown hfree (romRow_eq_none h), settle_notRunning hhalt]
  rfl

/-- Settles O35: the fetch gives the decoded instruction, and the controller answers to what exec leaves. -/
theorem stepRunsTheDecodedInstruction : Obligations.StepRunsTheDecodedInstruction := by
  intro s t i rest hfree hd h
  have hstep : step s = .next t.settle := by rw [step_fetched hfree (State.fetch_of_decode hd), h]; rfl
  exact ⟨fun hrun => by rw [hstep, settle_running hrun], fun hrun => by rw [hstep, settle_notRunning hrun]; rfl⟩

end Sys2Proof.Claims
end

section
/-!
SUPPORT. An instruction that reads an operand completes in its three modes once its shared operation does what is claimed;
and what ADC and SBC leave in A, Carry, Overflow, N and Z, as arithmetic on numbers (41_arithmetic.md R130, R131).
-/

namespace Sys2Proof.Machine

open Sys2Proof.Claims

/-- The three forms of an instruction that applies one operation to its operand value and moves PC past itself
(40_pipeline.md R106 to R111): what holds after the operation, wherever PC then is, each form does. -/
theorem completesInEachMode_of_operation {imm : Byte → Instr} {abs absX : Word → Instr} {op : State → Byte → State}
    {effect : State → Byte → State → Prop}
    (himm : ∀ v s, exec (imm v) s = .next ((op s (immOperand v)).advance .imm))
    (habs : ∀ base s, exec (abs base) s = .next ((op s (s.absOperand base)).advance .abs))
    (habsX : ∀ base s, exec (absX base) s = .next ((op s (s.absXOperand base)).advance .absX))
    (hpc : ∀ s v, (op s v).pc = s.pc) (heffect : ∀ s v m, effect s v ((op s v).advance m)) :
    completesInEachMode imm abs absX effect := by
  refine ⟨fun v s => ⟨_, himm v s, ?_, heffect s v .imm⟩, fun base s => ⟨_, habs base s, ?_, heffect s _ .abs⟩,
    fun base s => ⟨_, habsX base s, ?_, heffect s _ .absX⟩⟩
  · rw [State.advance_pc, State.nextPc_imm, hpc]
  · rw [State.advance_pc, State.nextPc_abs, hpc]
  · rw [State.advance_pc, State.nextPc_absX, hpc]

theorem setANZ_signsOf (s : State) (r : Byte) : signsOf r (s.setANZ r) := setNZ_signsOf (s.setA r) r

section
variable (s : State) (v : Byte) (m : Mode)

theorem adc_advance_a : ((s.adc v).advance m).a = adcResult s.a v (carry s) := rfl

theorem sbc_advance_a : ((s.sbc v).advance m).a = sbcResult s.a v (carry s) := rfl

theorem carry_adc_advance : carry ((s.adc v).advance m) = adcCarry s.a v (carry s) := (s.adc_spec v).2 0

theorem carry_sbc_advance : carry ((s.sbc v).advance m) = sbcCarry s.a v (carry s) := (s.sbc_spec v).2 0

theorem overflow_adc_advance :
    overflow ((s.adc v).advance m) = adcOverflow s.a v (adcResult s.a v (carry s)) := (s.adc_spec v).2 6

theorem overflow_sbc_advance :
    overflow ((s.sbc v).advance m) = sbcOverflow s.a v (sbcResult s.a v (carry s)) := (s.sbc_spec v).2 6

end

section
variable (a v r : Byte) (cin : Bool)

theorem toNat_adcResult : (adcResult a v cin).toNat = (a.toNat + v.toNat + cin.toNat) % 256 := BitVec.toNat_ofNat _ 8

theorem adcCarry_iff : adcCarry a v cin = true ↔ a.toNat + v.toNat + cin.toNat > 255 := decide_eq_true_iff

theorem adcOverflow_iff :
    adcOverflow a v r = true ↔ a.getLsbD 7 = v.getLsbD 7 ∧ r.getLsbD 7 ≠ a.getLsbD 7 := by
  rw [adcOverflow, Bool.and_eq_true, beq_iff_eq, bne_iff_ne]
  rfl

/-- SBC's result as a number, the effective operand not reduced (92 D7, log 6). -/
theorem toNat_sbcResult :
    ((sbcResult a v cin).toNat : Int) = ((a.toNat : Int) - ((v.toNat + 1 - cin.toNat : Nat) : Int)) % 256 := by
  rw [sbcResult, sbcEffective_eq, BitVec.toNat_ofInt]
  exact Int.toNat_of_nonneg (Int.emod_nonneg _ (by decide))

theorem sbcCarry_iff : sbcCarry a v cin = true ↔ a.toNat ≥ v.toNat + 1 - cin.toNat := by
  rw [sbcCarry, sbcEffective_eq, decide_eq_true_iff]
  exact Int.ofNat_le

theorem sbcOverflow_iff :
    sbcOverflow a v r = true ↔ a.getLsbD 7 ≠ v.getLsbD 7 ∧ r.getLsbD 7 ≠ a.getLsbD 7 := by
  rw [sbcOverflow, Bool.and_eq_true, bne_iff_ne, bne_iff_ne]
  rfl

end

/-! SBC against ADC of the complemented operand: with `255 - v` for `v`, each of the three values is the same. -/

section
variable (a v r : Byte) (cin : Bool)

theorem xor_ff_eq_not : v ^^^ 0xFF = ~~~v := BitVec.xor_allOnes

theorem toNat_xor_ff : (v ^^^ 0xFF).toNat = 255 - v.toNat := by rw [xor_ff_eq_not, BitVec.toNat_not]

theorem sbcResult_eq_adcResult : sbcResult a v cin = adcResult a (v ^^^ 0xFF) cin := by
  have hcin : cin.toNat ≤ 1 := Bool.toNat_le cin
  have hsbc := toNat_sbcResult a v cin
  apply BitVec.eq_of_toNat_eq
  rw [toNat_adcResult, toNat_xor_ff]
  omega

theorem sbcCarry_eq_adcCarry : sbcCarry a v cin = adcCarry a (v ^^^ 0xFF) cin := by
  have hcin : cin.toNat ≤ 1 := Bool.toNat_le cin
  rw [Bool.eq_iff_iff, sbcCarry_iff, adcCarry_iff, toNat_xor_ff]
  omega

/-- The complement has the other sign. -/
theorem sbcOverflow_eq_adcOverflow : sbcOverflow a v r = adcOverflow a (v ^^^ 0xFF) r := by
  have hsign : negativeOf (v ^^^ 0xFF) = !negativeOf v := by simp [negativeOf]
  rw [sbcOverflow, adcOverflow, hsign]
  cases negativeOf a <;> cases negativeOf v <;> rfl

end

end Sys2Proof.Machine
end

section
/-! The family 41_arithmetic.md. -/

namespace Sys2Proof.Claims

open Sys2Proof.Machine

/-- Settles O15: the shared operation of ADC does it, from whatever mode the operand comes. -/
theorem adcAddsWithCarryAndSetsFourFlags : Obligations.AdcAddsWithCarryAndSetsFourFlags := by
  refine completesInEachMode_of_operation (op := State.adc) (fun _ _ => rfl) (fun _ _ => rfl) (fun _ _ => rfl)
    (fun _ _ => rfl) fun s v m => ⟨?result, ?carry, ?overflow, ?signs, ?bits, rfl⟩
  case result => rw [adc_advance_a, toNat_adcResult]
  case carry => rw [carry_adc_advance, adcCarry_iff]
  case overflow => rw [overflow_adc_advance, adcOverflow_iff, adc_advance_a]
  case signs => exact setANZ_signsOf _ _
  case bits => exact keepsBitsBut_advance (adc_keepsBitsBut s v)

/-- Settles O16: the shared operation of SBC does it, from whatever mode the operand comes. -/
theorem sbcSubtractsWithBorrowAndSetsFourFlags : Obligations.SbcSubtractsWithBorrowAndSetsFourFlags := by
  refine completesInEachMode_of_operation (op := State.sbc) (fun _ _ => rfl) (fun _ _ => rfl) (fun _ _ => rfl)
    (fun _ _ => rfl) fun s v m => ⟨?result, ?carry, ?overflow, ?signs, ?bits, rfl⟩
  case result => rw [sbc_advance_a, toNat_sbcResult]
  case carry => rw [carry_sbc_advance, sbcCarry_iff]
  case overflow => rw [overflow_sbc_advance, sbcOverflow_iff, sbc_advance_a]
  case signs => exact setANZ_signsOf _ _
  case bits => exact keepsBitsBut_advance (sbc_keepsBitsBut s v)

/-- Settles O17: the two operations set the same result, Carry and Overflow. -/
theorem sbcIsAdcOfTheComplement : Obligations.SbcIsAdcOfTheComplement := by
  intro s v
  simp only [State.sbc, State.adc, sbcResult_eq_adcResult, sbcCarry_eq_adcCarry, sbcOverflow_eq_adcOverflow]

end Sys2Proof.Claims
end

section
/-!
SUPPORT. An instruction that leaves a result in A and sets N and Z from it (40_pipeline.md R113): what holds once PC has
moved past it, and its three forms.
-/

namespace Sys2Proof.Machine

open Sys2Proof.Claims

/-- What a result in A with its two flags leaves, wherever PC then is. -/
theorem setANZ_advance_effect (s : State) (r : Byte) (m : Mode) :
    ((s.setANZ r).advance m).a = r ∧ signsOf r ((s.setANZ r).advance m) ∧
    keepsBitsBut [7, 1] s ((s.setANZ r).advance m) ∧ onlyAPPc s ((s.setANZ r).advance m) :=
  ⟨rfl, setANZ_signsOf s r, keepsBitsBut_advance (setANZ_keepsBitsBut s r), onlyAPPc_setANZ_advance s s.p r m⟩

/-- The three forms of an instruction that combines A with its operand value and sets N and Z (42_logical.md). -/
theorem completesInEachMode_of_setANZ {imm : Byte → Instr} {abs absX : Word → Instr} {f : Byte → Byte → Byte}
    (himm : ∀ v s, exec (imm v) s = .next ((s.setANZ (f s.a (immOperand v))).advance .imm))
    (habs : ∀ base s, exec (abs base) s = .next ((s.setANZ (f s.a (s.absOperand base))).advance .abs))
    (habsX : ∀ base s, exec (absX base) s = .next ((s.setANZ (f s.a (s.absXOperand base))).advance .absX)) :
    completesInEachMode imm abs absX fun s v t =>
      t.a = f s.a v ∧ signsOf t.a t ∧ keepsBitsBut [7, 1] s t ∧ onlyAPPc s t :=
  completesInEachMode_of_operation (op := fun s v => s.setANZ (f s.a v)) himm habs habsX (fun _ _ => rfl)
    fun s v m => setANZ_advance_effect s (f s.a v) m

end Sys2Proof.Machine
end

section
/-! The family 42_logical.md. -/

namespace Sys2Proof.Claims

open Sys2Proof.Machine

/-- Settles O18: each of the three is `setANZ` of its own combination of A and the operand. -/
theorem logicalInstructionsCombineAWithTheOperand : Obligations.LogicalInstructionsCombineAWithTheOperand := by
  refine ⟨?and, ?eor, ?ora⟩
  case and => exact completesInEachMode_of_setANZ (fun _ _ => rfl) (fun _ _ => rfl) (fun _ _ => rfl)
  case eor => exact completesInEachMode_of_setANZ (fun _ _ => rfl) (fun _ _ => rfl) (fun _ _ => rfl)
  case ora => exact completesInEachMode_of_setANZ (fun _ _ => rfl) (fun _ _ => rfl) (fun _ _ => rfl)

end Sys2Proof.Claims
end

section
/-!
SUPPORT. The shifts and rotates of A (43_shift.md R150 to R153): the byte each leaves as a number, and what an instruction
that ends in `shifted` does.
-/

namespace Sys2Proof.Machine

open Sys2Proof.Claims

/-- A bit of a byte as a digit of its number. -/
theorem toNat_getLsbD (a : Byte) (k : Nat) : (a.getLsbD k).toNat = a.toNat / 2 ^ k % 2 := Nat.toNat_testBit _ _

theorem boolToNat_injective : Function.Injective Bool.toNat := Function.LeftInverse.injective Bool.ofNat_toNat

theorem toNat_carryByte (c : Bool) : (carryByte c).toNat = c.toNat := by cases c <;> rfl

theorem toNat_shiftLeft_one (a : Byte) : (a <<< 1).toNat = 2 * a.toNat % 256 := by
  rw [BitVec.toNat_shiftLeft, Nat.shiftLeft_eq, Nat.mul_comm]

theorem toNat_ushiftRight_one (a : Byte) : (a >>> 1).toNat = a.toNat / 2 := by
  rw [BitVec.toNat_ushiftRight, Nat.shiftRight_eq_div_pow]

/-- The bit that ROL fills is the one the shift left vacates, so filling it is an addition. -/
theorem shiftLeft_one_or_carryByte (a : Byte) (c : Bool) : a <<< 1 ||| carryByte c = a <<< 1 + carryByte c := by
  refine (BitVec.add_eq_or_of_and_eq_zero _ _ (BitVec.eq_of_getLsbD_eq fun j _ => ?_)).symm
  cases j <;> simp [carryByte]

/-- The bit that ROR fills is the one the shift right vacates, so filling it is an addition. -/
theorem ushiftRight_one_or_carryByte (a : Byte) (c : Bool) :
    a >>> 1 ||| carryByte c <<< 7 = a >>> 1 + carryByte c <<< 7 := by
  refine (BitVec.add_eq_or_of_and_eq_zero _ _ (BitVec.eq_of_getLsbD_eq fun j hj => ?_)).symm
  by_cases h7 : j = 7
  · simp [h7]
  · simp [show j < 7 by omega]

section
variable (s : State)

theorem toNat_asl_a : s.asl.a.toNat = 2 * s.a.toNat % 256 := toNat_shiftLeft_one s.a

theorem toNat_lsr_a : s.lsr.a.toNat = s.a.toNat / 2 := toNat_ushiftRight_one s.a

theorem toNat_rol_a : s.rol.a.toNat = (2 * s.a.toNat + (carry s).toNat) % 256 := by
  calc s.rol.a.toNat
      = (s.a <<< 1 ||| carryByte (carry s)).toNat := rfl
    _ = (2 * s.a.toNat % 256 + (carry s).toNat) % 256 := by
        rw [shiftLeft_one_or_carryByte, BitVec.toNat_add, toNat_shiftLeft_one, toNat_carryByte]
    _ = (2 * s.a.toNat + (carry s).toNat) % 256 := Nat.mod_add_mod _ _ _

theorem toNat_ror_a : s.ror.a.toNat = s.a.toNat / 2 + 128 * (carry s).toNat := by
  have ha : s.a.toNat < 256 := s.a.isLt
  have hc : (carry s).toNat ≤ 1 := Bool.toNat_le _
  calc s.ror.a.toNat
      = (s.a >>> 1 ||| carryByte (carry s) <<< 7).toNat := rfl
    _ = (s.a.toNat / 2 + (carry s).toNat * 128 % 256) % 256 := by
        rw [ushiftRight_one_or_carryByte, BitVec.toNat_add, toNat_ushiftRight_one, BitVec.toNat_shiftLeft, toNat_carryByte,
          Nat.shiftLeft_eq]
    _ = s.a.toNat / 2 + 128 * (carry s).toNat := by omega

theorem carry_shifted (c : Bool) (r : Byte) : carry (s.shifted c r) = c := (s.shifted_spec c r).2 0

theorem carry_rol : carry s.rol = s.a.getLsbD 7 := carry_shifted s _ _

theorem carry_ror : carry s.ror = s.a.getLsbD 0 := carry_shifted s _ _

end

/-- What a shift leaves in the state, wherever PC then is. -/
theorem shifted_advance_effect (s : State) (c : Bool) (r : Byte) (m : Mode) :
    carry ((s.shifted c r).advance m) = c ∧ signsOf r ((s.shifted c r).advance m) ∧
    keepsBitsBut [7, 1, 0] s ((s.shifted c r).advance m) ∧ onlyAPPc s ((s.shifted c r).advance m) :=
  ⟨carry_shifted s c r, setANZ_signsOf _ r, keepsBitsBut_advance (shifted_keepsBitsBut s c r),
    onlyAPPc_setANZ_advance s _ r m⟩

/-- An instruction whose operation puts the bit `out` of A into Carry and the byte with the number `result` into A. -/
theorem completes_of_shifted {i : Instr} {op : State → State} {out : Byte → Bool} {result : State → Byte → Nat}
    (hexec : ∀ s, exec i s = .next ((op s).advance .acc)) (hop : ∀ s, op s = s.shifted (out s.a) (op s).a)
    (hresult : ∀ s, (op s).a.toNat = result s s.a) :
    completes i 1 (fun s => s.a) fun s a t =>
      t.a.toNat = result s a ∧ carry t = out a ∧ signsOf t.a t ∧ keepsBitsBut [7, 1, 0] s t ∧ onlyAPPc s t := by
  intro s
  have heffect := shifted_advance_effect s (out s.a) (op s).a .acc
  rw [← hop] at heffect
  refine ⟨_, hexec s, ?_, hresult s, heffect⟩
  rw [State.advance_pc, State.nextPc_acc, hop]
  rfl

end Sys2Proof.Machine
end

section
/-! The family 43_shift.md. -/

namespace Sys2Proof.Claims

open Sys2Proof.Machine

/-- Settles O19: a shift left doubles A modulo 256, a shift right halves it. -/
theorem shiftsMoveOneBitIntoCarry : Obligations.ShiftsMoveOneBitIntoCarry := by
  refine ⟨?asl, ?lsr⟩
  case asl => exact completes_of_shifted (fun _ => rfl) (fun _ => rfl) toNat_asl_a
  case lsr => exact completes_of_shifted (fun _ => rfl) (fun _ => rfl) toNat_lsr_a

/-- Settles O20: as the shifts, with the incoming Carry added in the place left free. -/
theorem rotatesGoThroughCarry : Obligations.RotatesGoThroughCarry := by
  refine ⟨?rol, ?ror⟩
  case rol => exact completes_of_shifted (fun _ => rfl) (fun _ => rfl) toNat_rol_a
  case ror => exact completes_of_shifted (fun _ => rfl) (fun _ => rfl) toNat_ror_a

/-- Settles O21 on numbers: the bit each rotate puts into Carry is the one the other brings back into A. -/
theorem rorUndoesRol : Obligations.RorUndoesRol := by
  intro s
  have ha : s.a.toNat < 256 := s.a.isLt
  have hc : (carry s).toNat ≤ 1 := Bool.toNat_le _
  refine ⟨BitVec.eq_of_toNat_eq ?rolRorA, boolToNat_injective ?rolRorCarry,
    BitVec.eq_of_toNat_eq ?rorRolA, boolToNat_injective ?rorRolCarry⟩
  case rolRorA =>
    rw [toNat_ror_a, carry_rol, toNat_getLsbD, toNat_rol_a]
    omega
  case rolRorCarry =>
    rw [carry_ror, toNat_getLsbD, toNat_rol_a]
    omega
  case rorRolA =>
    rw [toNat_rol_a, carry_ror, toNat_getLsbD, toNat_ror_a]
    omega
  case rorRolCarry =>
    rw [carry_rol, toNat_getLsbD, toNat_ror_a]
    omega

end Sys2Proof.Claims
end

section
/-!
SUPPORT. The three flags of CMP once PC has moved past it (44_compare.md R160), each in terms of A and the operand value.
-/

namespace Sys2Proof.Machine

open Sys2Proof.Claims

section
variable (s : State) (v : Byte) (m : Mode)

/-- The comparison is of the bytes as unsigned numbers. -/
theorem carry_cmp_advance_iff : carry ((s.cmp v).advance m) = true ↔ s.a.toNat ≥ v.toNat := by
  have hbit : carry ((s.cmp v).advance m) = cmpCarry s.a v := (s.cmp_spec v).2 0
  rw [hbit, cmpCarry, decide_eq_true_iff]

theorem zero_cmp_advance_iff : zero ((s.cmp v).advance m) = true ↔ s.a = v := by
  have hbit : zero ((s.cmp v).advance m) = cmpZero s.a v := (s.cmp_spec v).2 1
  rw [hbit, cmpZero, beq_iff_eq]

/-- N is the top bit of the difference modulo 256, not the outcome of a signed comparison. -/
theorem negative_cmp_advance : negative ((s.cmp v).advance m) = (s.a - v).getLsbD 7 := (s.cmp_spec v).2 7

end

end Sys2Proof.Machine
end

section
/-! The family 44_compare.md. -/

namespace Sys2Proof.Claims

open Sys2Proof.Machine

/-- Settles O22: the shared operation of CMP does it, from whatever mode the operand comes. -/
theorem cmpComparesWithoutWritingA : Obligations.CmpComparesWithoutWritingA := by
  refine completesInEachMode_of_operation (op := State.cmp) (fun _ _ => rfl) (fun _ _ => rfl) (fun _ _ => rfl)
    (fun _ _ => rfl) fun s v m => ⟨?carry, ?zero, ?negative, ?bits, ?frame⟩
  case carry => exact carry_cmp_advance_iff s v m
  case zero => exact zero_cmp_advance_iff s v m
  case negative => exact negative_cmp_advance s v m
  case bits => exact keepsBitsBut_advance (cmp_keepsBitsBut s v)
  case frame => exact onlyPPc_setP_advance s _ m

end Sys2Proof.Claims
end

section
/-!
SUPPORT. An instruction that ends by moving PC past itself; what a result in X with N and Z leaves, and what a write of one
byte leaves, once PC has moved (45_load_store.md R170 to R173).
-/

namespace Sys2Proof.Machine

open Sys2Proof.Claims

/-- An instruction whose meaning is one operation and then the move of PC past itself (40_pipeline.md R111). -/
theorem completes_of_advance {i : Instr} {bytes : Word} {v : State → Byte} {effect : State → Byte → State → Prop}
    {op : State → State} {m : Mode} (hexec : ∀ s, exec i s = .next ((op s).advance m))
    (hpc : ∀ s, (op s).nextPc m = s.pc + bytes) (heffect : ∀ s, effect s (v s) ((op s).advance m)) :
    completes i bytes v effect := fun s =>
  ⟨_, hexec s, (State.advance_pc _ m).trans (hpc s), heffect s⟩

theorem setXNZ_signsOf (s : State) (r : Byte) : signsOf r (s.setXNZ r) := setNZ_signsOf (s.setX r) r

/-- What a result in X with its two flags leaves, wherever PC then is. -/
theorem setXNZ_advance_effect (s : State) (r : Byte) (m : Mode) :
    ((s.setXNZ r).advance m).x = r ∧ signsOf r ((s.setXNZ r).advance m) ∧
    keepsBitsBut [7, 1] s ((s.setXNZ r).advance m) ∧ onlyXPPc s ((s.setXNZ r).advance m) :=
  ⟨rfl, setXNZ_signsOf s r, keepsBitsBut_advance (setXNZ_keepsBitsBut s r), onlyXPPc_setXNZ_advance s r m⟩

/-- What a write of one byte leaves, wherever PC then is (20_memory.md R43). -/
theorem write8_advance_effect (s : State) (ea : Word) (v : Byte) (m : Mode) :
    Memory.read8 ((s.write8 ea v).advance m).mem ea = v ∧
    (∀ b : Word, b ≠ ea → Memory.read8 ((s.write8 ea v).advance m).mem b = Memory.read8 s.mem b) ∧
    (s.write8 ea v).advance m =
      { s with mem := ((s.write8 ea v).advance m).mem, pc := ((s.write8 ea v).advance m).pc } :=
  ⟨(Memory.read8_write8 _ _ _ _).trans (if_pos rfl), fun _ hb => (Memory.read8_write8 _ _ _ _).trans (if_neg hb), rfl⟩

end Sys2Proof.Machine
end

section
/-! The family 45_load_store.md. -/

namespace Sys2Proof.Claims

open Sys2Proof.Machine

/-- Settles O23: LDA is `setANZ` of its operand and LDX `setXNZ` of its own, from whatever mode the operand comes. -/
theorem loadsPutTheOperandInTheRegister : Obligations.LoadsPutTheOperandInTheRegister := by
  refine ⟨?lda, ?ldxImm, ?ldxAbs⟩
  case lda =>
    exact completesInEachMode_of_operation (op := State.setANZ) (fun _ _ => rfl) (fun _ _ => rfl) (fun _ _ => rfl)
      (fun _ _ => rfl) setANZ_advance_effect
  case ldxImm =>
    exact fun v => completes_of_advance (fun _ => rfl) (fun _ => State.nextPc_imm _)
      fun s => setXNZ_advance_effect s v .imm
  case ldxAbs =>
    exact fun base => completes_of_advance (fun _ => rfl) (fun _ => State.nextPc_abs _)
      fun s => setXNZ_advance_effect s (s.absOperand base) .abs

/-- Settles O24: each of the three writes its register at its own effective address, and a write changes one byte. -/
theorem storesWriteOneByteAtTheEffectiveAddress : Obligations.StoresWriteOneByteAtTheEffectiveAddress := by
  refine fun base => ⟨?staAbs, ?staAbsX, ?stxAbs⟩
  case staAbs =>
    exact completes_of_advance (fun _ => rfl) (fun _ => State.nextPc_abs _)
      fun s => write8_advance_effect s (absAddress base) s.a .abs
  case staAbsX =>
    exact completes_of_advance (fun _ => rfl) (fun _ => State.nextPc_absX _)
      fun s => write8_advance_effect s (s.absXAddress base) s.a .absX
  case stxAbs =>
    exact completes_of_advance (fun _ => rfl) (fun _ => State.nextPc_abs _)
      fun s => write8_advance_effect s (absAddress base) s.x .abs

end Sys2Proof.Claims
end

section
/-! SUPPORT. A byte one down, as a number modulo 256 (46_register.md R181). -/

namespace Sys2Proof.Machine

/-- The remainder is that of an integer, never negative: below 0 the byte wraps to 255. -/
theorem toNat_sub_one (x : Byte) : ((x - 1).toNat : Int) = ((x.toNat : Int) - 1) % 256 := by
  have hsub : (x - 1).toNat = (256 - 1 + x.toNat) % 256 := BitVec.toNat_sub x 1
  omega

end Sys2Proof.Machine
end

section
/-! The family 46_register.md. -/

namespace Sys2Proof.Claims

open Sys2Proof.Machine

/-- Settles O25: each is `setXNZ` of the byte next to X, whose number wraps modulo 256. -/
theorem incrementAndDecrementOfXWrap : Obligations.IncrementAndDecrementOfXWrap := by
  refine ⟨?inx, ?dex⟩
  case inx =>
    exact completes_of_advance (fun _ => rfl) (fun _ => State.nextPc_imp _)
      fun s => ⟨BitVec.toNat_add s.x 1, (setXNZ_advance_effect s (s.x + 1) .imp).2⟩
  case dex =>
    exact completes_of_advance (fun _ => rfl) (fun _ => State.nextPc_imp _)
      fun s => ⟨toNat_sub_one s.x, (setXNZ_advance_effect s (s.x - 1) .imp).2⟩

/-- Settles O26: TAX is `setXNZ` of A and TXA `setANZ` of X. -/
theorem transfersCopyBetweenAAndX : Obligations.TransfersCopyBetweenAAndX := by
  refine ⟨?tax, ?txa⟩
  case tax =>
    exact completes_of_advance (fun _ => rfl) (fun _ => State.nextPc_imp _)
      fun s => setXNZ_advance_effect s s.a .imp
  case txa =>
    exact completes_of_advance (fun _ => rfl) (fun _ => State.nextPc_imp _)
      fun s => setANZ_advance_effect s s.x .imp

end Sys2Proof.Claims
end

section
/-! The family 47_flag.md. -/

namespace Sys2Proof.Claims

open Sys2Proof.Machine

/-- What Carry set to `b` leaves, wherever PC then is. -/
theorem setCarry_advance_effect (s : State) (b : Bool) (m : Mode) :
    carry ((s.setFlag .carry b).advance m) = b ∧ keepsBitsBut [0] s ((s.setFlag .carry b).advance m) ∧
    onlyPPc s ((s.setFlag .carry b).advance m) :=
  ⟨(s.setFlag_bit .carry b 0).trans (if_pos rfl), keepsBitsBut_advance (setFlag_keepsBitsBut s .carry b),
    onlyPPc_setP_advance s _ m⟩

/-- Settles O27: CLC sets Carry to 0 and SEC to 1, and setting one flag changes one bit of P. -/
theorem clcAndSecWriteCarryAlone : Obligations.ClcAndSecWriteCarryAlone := by
  refine ⟨?clc, ?sec⟩
  case clc =>
    exact completes_of_advance (fun _ => rfl) (fun _ => State.nextPc_imp _)
      fun s => setCarry_advance_effect s false .imp
  case sec =>
    exact completes_of_advance (fun _ => rfl) (fun _ => State.nextPc_imp _)
      fun s => setCarry_advance_effect s true .imp

end Sys2Proof.Claims
end

section
/-! The family 48_control.md. -/

namespace Sys2Proof.Claims

open Sys2Proof.Machine

/-- An instruction that does what a branch does meets the branch rule (48_control.md R200). -/
theorem exec_branch_rule {i : Instr} {s : State} {cond : Bool} {d : Byte}
    (h : exec i s = .next (s.branch cond d)) :
    ∃ t : State, exec i s = .next t ∧ t = { s with pc := t.pc } ∧
      (t.pc.toNat : Int) = (if cond then (s.pc.toNat : Int) + 2 + d.toInt else (s.pc.toNat : Int) + 2) % 65536 := by
  obtain ⟨hframe, hpc⟩ := s.branch_spec cond d
  refine ⟨_, h, hframe, hpc.trans ?_⟩
  cases cond
  · rw [if_neg nofun, if_neg nofun, Int.add_zero]
  · rw [if_pos rfl, if_pos rfl]

/-- Settles O28: each of the six is `State.branch` on its own flag. -/
theorem branchesFollowTheirFlag : Obligations.BranchesFollowTheirFlag := fun _ _ =>
  ⟨exec_branch_rule rfl, exec_branch_rule rfl, exec_branch_rule rfl, exec_branch_rule rfl,
    exec_branch_rule rfl, exec_branch_rule rfl⟩

/-- Settles O29: the address of Absolute mode is the operand itself. -/
theorem jmpSetsPcToItsOperand : Obligations.JmpSetsPcToItsOperand := fun _ _ => rfl

/-- Settles O30: a halt writes the run status alone. -/
theorem brkHaltsAndChangesNothingElse : Obligations.BrkHaltsAndChangesNothingElse := fun _ => rfl

end Sys2Proof.Claims
end

section
/-!
SUPPORT. The commands of the debug controller, said once: what a line's word and argument make of it, what each command does
in PausedInteractive, and that TerminalInspection does the same but for `step` and `end` (60_exceptions.md R227, R234 to
R239).
-/

namespace Sys2Proof.Machine

/-- The word a line starts with when it reads as this command; what is no command may start with any. -/
def Command.startsWith (word : Text) : Command → Prop
  | .step _ => word = ['s', 't', 'e', 'p']
  | .memoryView _ => word = ['m']
  | .instructionView _ => word = ['i']
  | .endPausing => word = ['e', 'n', 'd']
  | .exit => word = ['e', 'x', 'i', 't']
  | .invalidArgument | .unrecognized => True

/-- Every command is read from a line of its own word. -/
theorem parseCommand_startsWith (line : Text) : (parseCommand line).startsWith (splitLine line).1 := by
  simp only [parseCommand, Bool.and_eq_true, decide_eq_true_eq]
  split_ifs with hstep _ hm hi hend hexit
  · exact hstep
  · split
    · exact hstep
    · trivial
  · split
    · exact hm
    · trivial
  · split
    · exact hi
    · trivial
  · exact hend.1
  · exact hexit.1
  · trivial

/-- Obeying a command leaves the lines that wait. -/
theorem pausedCommand_commands (d : Debugger) (line : Text) : (d.pausedCommand line).commands = d.commands := by
  unfold Debugger.pausedCommand
  split <;> rfl

section
variable {line : Text} {d : Debugger}

/-- `m` and `i` need an address (R227, R235). -/
theorem parseCommand_view_invalid (hw : (splitLine line).1 ∈ [['m'], ['i']])
    (hn : number? 16 (splitLine line).2 = none) : parseCommand line = .invalidArgument := by
  rcases List.mem_pair.mp hw with hw | hw <;> simp [parseCommand, hw, hn]

/-- An argument of `step` must be a count (R227, R234). -/
theorem parseCommand_step_invalid (hw : (splitLine line).1 = ['s', 't', 'e', 'p']) (ha : (splitLine line).2 ≠ [])
    (hn : number? 10 (splitLine line).2 = none) : parseCommand line = .invalidArgument := by
  simp [parseCommand, hw, ha, hn]

/-- A word of no command is unrecognized (R239). -/
theorem parseCommand_unknown_word
    (hw : (splitLine line).1 ∉ [['s', 't', 'e', 'p'], ['m'], ['i'], ['e', 'n', 'd'], ['e', 'x', 'i', 't']]) :
    parseCommand line = .unrecognized := by
  simp only [List.mem_cons, List.not_mem_nil, or_false, not_or] at hw
  simp [parseCommand, hw]

/-- `end` and `exit` take no argument (R239; log 14). -/
theorem parseCommand_end_exit_argument (hw : (splitLine line).1 ∈ [['e', 'n', 'd'], ['e', 'x', 'i', 't']])
    (ha : (splitLine line).2 ≠ []) : parseCommand line = .unrecognized := by
  rcases List.mem_pair.mp hw with hw | hw <;> simp [parseCommand, hw, ha]

theorem pausedCommand_step {n : Nat} (h : parseCommand line = .step n) :
    d.pausedCommand line = { d with controller := .singleStep n, reply := none } := by
  simp only [Debugger.pausedCommand, h]

theorem pausedCommand_memoryView {a : Word} (h : parseCommand line = .memoryView a) :
    d.pausedCommand line = { d with memCursor := a, reply := some .view } := by
  simp only [Debugger.pausedCommand, h]

theorem pausedCommand_instructionView {a : Word} (h : parseCommand line = .instructionView a) :
    d.pausedCommand line = { d with instrCursor := a, reply := some .view } := by
  simp only [Debugger.pausedCommand, h]

theorem pausedCommand_endPausing (h : parseCommand line = .endPausing) :
    d.pausedCommand line = { d with controller := .continuousRun, debugFlag := false, reply := none } := by
  simp only [Debugger.pausedCommand, h]

theorem pausedCommand_exit (h : parseCommand line = .exit) :
    d.pausedCommand line = { d with controller := .terminated, reply := none } := by
  simp only [Debugger.pausedCommand, h]

theorem pausedCommand_invalidArgument (h : parseCommand line = .invalidArgument) :
    d.pausedCommand line = { d with reply := some (.invalidCommandArgument line) } := by
  simp only [Debugger.pausedCommand, h]

theorem pausedCommand_unrecognized (h : parseCommand line = .unrecognized) :
    d.pausedCommand line = { d with reply := some .view } := by
  simp only [Debugger.pausedCommand, h]

/-- Every line of `step` and `end` is unrecognized in TerminalInspection (R238; 92 D30). -/
theorem inspectionCommand_of_step_end (hw : (splitLine line).1 ∈ [['s', 't', 'e', 'p'], ['e', 'n', 'd']]) :
    d.inspectionCommand line = { d with reply := some .view } := by
  rcases List.mem_pair.mp hw with hw | hw
  · simp only [Debugger.inspectionCommand, hw, if_true]
  · by_cases ha : (splitLine line).2 = [] <;> simp [Debugger.inspectionCommand, parseCommand, hw, ha]

/-- TerminalInspection obeys every other line as PausedInteractive does (R238). -/
theorem inspectionCommand_of_not_step_end (hw : (splitLine line).1 ∉ [['s', 't', 'e', 'p'], ['e', 'n', 'd']]) :
    d.inspectionCommand line = d.pausedCommand line := by
  simp only [List.mem_cons, List.not_mem_nil, or_false, not_or] at hw
  obtain ⟨hstep, hend⟩ := hw
  have hword := parseCommand_startsWith line
  rw [Debugger.inspectionCommand, if_neg hstep, Debugger.pausedCommand]
  cases hp : parseCommand line with
  | step n => exact absurd (hp ▸ hword :) hstep
  | endPausing => exact absurd (hp ▸ hword :) hend
  | memoryView a | instructionView a | exit | invalidArgument | unrecognized => rfl

theorem inspectionCommand_memoryView {a : Word} (h : parseCommand line = .memoryView a) :
    d.inspectionCommand line = { d with memCursor := a, reply := some .view } := by
  have hw : (splitLine line).1 = ['m'] := (h ▸ parseCommand_startsWith line :)
  rw [inspectionCommand_of_not_step_end (by simp [hw]), pausedCommand_memoryView h]

theorem inspectionCommand_instructionView {a : Word} (h : parseCommand line = .instructionView a) :
    d.inspectionCommand line = { d with instrCursor := a, reply := some .view } := by
  have hw : (splitLine line).1 = ['i'] := (h ▸ parseCommand_startsWith line :)
  rw [inspectionCommand_of_not_step_end (by simp [hw]), pausedCommand_instructionView h]

theorem inspectionCommand_exit (h : parseCommand line = .exit) :
    d.inspectionCommand line = { d with controller := .terminated, reply := none } := by
  have hw : (splitLine line).1 = ['e', 'x', 'i', 't'] := (h ▸ parseCommand_startsWith line :)
  rw [inspectionCommand_of_not_step_end (by simp [hw]), pausedCommand_exit h]

theorem inspectionCommand_unrecognized (h : parseCommand line = .unrecognized) :
    d.inspectionCommand line = { d with reply := some .view } := by
  by_cases hw : (splitLine line).1 ∈ [['s', 't', 'e', 'p'], ['e', 'n', 'd']]
  · exact inspectionCommand_of_step_end hw
  · rw [inspectionCommand_of_not_step_end hw, pausedCommand_unrecognized h]

/-- TerminalInspection answers every line that is neither a view command nor `exit`, and does nothing else (R238). -/
theorem inspectionCommand_reply (d : Debugger) (hm : ∀ a, parseCommand line ≠ .memoryView a)
    (hi : ∀ a, parseCommand line ≠ .instructionView a) (hx : parseCommand line ≠ .exit) :
    ∃ r, d.inspectionCommand line = { d with reply := some r } := by
  unfold Debugger.inspectionCommand
  split
  · exact ⟨_, rfl⟩
  · split
    case h_1 a hp => exact absurd hp (hm a)
    case h_2 a hp => exact absurd hp (hi a)
    case h_3 hp => exact absurd hp hx
    all_goals exact ⟨_, rfl⟩

end

end Sys2Proof.Machine
end

section
/-!
SUPPORT. The steps of the machine that read no command: the pauses, a single step, a terminated controller, and the run that
a count of single steps is (60_exceptions.md R233, R234, R240).
-/

namespace Sys2Proof.Machine

open Sys2Proof.Claims

section
variable {s : State}

/-- With the debug flag set the next step pauses (R233). -/
theorem step_pausing (hc : s.dbg.controller = .continuousRun) (hflag : s.dbg.debugFlag = true) :
    step s = .next (s.setController .pausedInteractive) := by
  simp only [step, State.cycle, hc, hflag, if_true]

/-- With no single step left the next step pauses (R234). -/
theorem step_stepped (hc : s.dbg.controller = .singleStep 0) :
    step s = .next (s.setController .pausedInteractive) := by
  simp only [step, State.cycle, hc]

/-- With single steps left the next step is a dispatcher step and one of them (R234). -/
theorem step_stepping {n : Nat} {u : State} (hc : s.dbg.controller = .singleStep (n + 1)) (hu : s.dispatch = .next u) :
    step s = .next (u.setController (.singleStep n)).settle := by
  simp only [step, State.cycle, hc, hu, andThen]

theorem step_terminated (hc : s.dbg.controller = .terminated) : step s = .next s := by
  simp only [step, State.cycle, hc]

end

/-- No run of a terminated controller changes anything (R240). -/
theorem run_terminated {n : Nat} {s t : State} (hc : s.dbg.controller = .terminated) (h : core.run n s = .next t) :
    t = s := by
  refine run_induction (R := fun s t => s.dbg.controller = .terminated → t = s) (fun _ _ => rfl) ?_ h hc
  intro s u t hstep hrest hc
  obtain rfl : s = u := Host.Outcome.next.inj ((step_terminated hc).symm.trans hstep)
  exact hrest hc

/-- A dispatcher step and then more of them. -/
theorem dispatches_succ {n : Nat} {s u v : State} (hv : s.dispatch = .next v) (h : dispatches (n + 1) s = .next u) :
    dispatches n v = .next u := by
  simpa only [dispatches, hv] using h

/-- A core that is running after some dispatcher steps was running before them (40_pipeline.md R118). -/
theorem running_of_dispatches {n : Nat} {s u : State} (h : dispatches n s = .next u) (hu : u.run = .running) :
    s.run = .running := by
  induction n generalizing s with
  | zero =>
    injection h with h
    exact h ▸ hu
  | succ n ih =>
    cases hs : s.run with
    | running => rfl
    | halted r => exact hs.symm.trans (ih (dispatches_succ (dispatch_halted hs) h))

/-- With `n` single steps left, a run of `n + 1` steps is `n` dispatcher steps and a pause, if they leave the core running
(R234). -/
theorem run_stepping {n : Nat} {s u : State} {d : Debugger} (hd : d.controller = .singleStep n)
    (h : dispatches n s = .next u) (hu : u.run = .running) :
    core.run (n + 1) (s.setDbg d) = .next (u.setDbg { d with controller := .pausedInteractive }) := by
  induction n generalizing s d with
  | zero =>
    injection h with h
    subst h
    exact run_succ (step_stepped hd)
  | succ n ih =>
    obtain ⟨v, hv⟩ := dispatch_next s
    have hrest : dispatches n v = .next u := dispatches_succ hv h
    have hdispatch : (s.setDbg d).dispatch = .next (v.setDbg d) := by rw [dispatch_setDbg, hv]; rfl
    have hvrun : v.run = .running := running_of_dispatches hrest hu
    have hrun : ((v.setDbg d).setController (.singleStep n)).run = .running := hvrun
    have hstep := step_stepping hd hdispatch
    rw [settle_running hrun] at hstep
    rw [run_succ hstep]
    exact ih (s := v) (d := { d with controller := .singleStep n }) rfl hrest

end Sys2Proof.Machine
end

section
/-! The family 60_exceptions.md. -/

namespace Sys2Proof.Claims

open Sys2Proof.Machine

/-- Settles O46, by `step_cases`. -/
theorem cpuChangesOnlyByADispatcherStep : Obligations.CpuChangesOnlyByADispatcherStep := by
  intro s t h
  obtain ⟨_, hcpu⟩ := step_cases h
  exact hcpu

/-- Settles O47: the debug flag is set from construction on. -/
theorem debugModePausesBeforeTheFirstFetch : Obligations.DebugModePausesBeforeTheFirstFetch := by
  intro c bytes hmode
  have hflag : ((State.construct c).loadBytes bytes).dbg.debugFlag = true := decide_eq_true hmode
  exact ⟨_, step_pausing rfl hflag, rfl, rfl⟩

/-- Settles O48: the first step reads the command, and the run from there is `run_stepping`. -/
theorem stepCommandRunsExactlyNInstructions : Obligations.StepCommandRunsExactlyNInstructions := by
  intro n s u line later hc hl hp _ h hu
  have hread := step_paused hc hl
  rw [pausedCommand_step hp] at hread
  exact ⟨_, (run_succ hread).trans (run_stepping rfl h hu), rfl, rfl, rfl⟩

/-- Settles O49: the controller's answer to the halt overrides the steps that remain. -/
theorem haltWhileSteppingEntersTerminalInspection : Obligations.HaltWhileSteppingEntersTerminalInspection := by
  intro n s u r hc hmode _ hu hhalt
  have hdbg : u.dbg = s.dbg := dispatch_dbg hu
  have hrun : (u.setController (.singleStep n)).run = .halted r := hhalt
  rw [step_stepping hc hu, settle_halted hrun, atHalt_eq, State.setController_dbg, if_pos (hdbg ▸ hmode), ← hdbg]
  rfl

/-- Settles O50: the dispatcher step does not touch the controller, so its answer to the halt goes by the mode. -/
theorem haltWhileRunningEndsByMode : Obligations.HaltWhileRunningEndsByMode := by
  rintro s u r ⟨_, hc, hflag⟩ hu hhalt
  have hstep : step s = .next u.settle := by rw [step_free hc hflag, hu]; rfl
  rw [settle_halted hhalt, atHalt_eq, dispatch_dbg hu] at hstep
  exact ⟨_, hstep, rfl, fun hmode => if_pos hmode, fun hmode => if_neg (by simp [hmode])⟩

/-- Settles O51: reading a command writes the controller alone, and each command has its own equation. -/
theorem pausedCommandsActOnTheControllerAlone : Obligations.PausedCommandsActOnTheControllerAlone := by
  intro s line later hc hl
  refine ⟨_, step_paused hc hl, rfl, pausedCommand_commands _ _, pausedCommand_mode _ _, ?step, ?memory, ?instruction,
    ?stop, ?exit⟩
  case step =>
    intro n hp
    rw [State.setDbg_dbg, pausedCommand_step hp]
    exact ⟨rfl, rfl, rfl, rfl⟩
  case memory =>
    intro a hp
    rw [State.setDbg_dbg, pausedCommand_memoryView hp]
    exact ⟨hc, rfl, rfl, rfl, rfl⟩
  case instruction =>
    intro a hp
    rw [State.setDbg_dbg, pausedCommand_instructionView hp]
    exact ⟨hc, rfl, rfl, rfl, rfl⟩
  case stop =>
    intro hp
    rw [State.setDbg_dbg, pausedCommand_endPausing hp]
    exact ⟨rfl, rfl, rfl, rfl⟩
  case exit =>
    intro hp
    rw [State.setDbg_dbg, pausedCommand_exit hp]
    exact ⟨rfl, rfl, rfl, rfl⟩

/-- Settles O52: the line reads as a command with an invalid argument, which is answered by the error. -/
theorem invalidArgumentIsRejectedAndChangesNoState : Obligations.InvalidArgumentIsRejectedAndChangesNoState := by
  intro s line later hl h
  rcases h with ⟨hc | hc, hw, hn⟩ | ⟨hc, hw, ha, hn⟩
  · rw [step_paused hc hl, pausedCommand_invalidArgument (parseCommand_view_invalid hw hn)]
    rfl
  · have hother : (splitLine line).1 ∉ [['s', 't', 'e', 'p'], ['e', 'n', 'd']] := by
      rcases List.mem_pair.mp hw with hw | hw <;> simp [hw]
    rw [step_inspection hc hl, inspectionCommand_of_not_step_end hother,
      pausedCommand_invalidArgument (parseCommand_view_invalid hw hn)]
    rfl
  · rw [step_paused hc hl, pausedCommand_invalidArgument (parseCommand_step_invalid hw ha hn)]
    rfl

/-- A line that reads as unrecognized is answered by the view wherever commands are read (R239). -/
theorem step_unrecognized {s : State} {line : Text} {later : List Text}
    (hc : s.dbg.controller = .pausedInteractive ∨ s.dbg.controller = .terminalInspection)
    (hl : s.dbg.commands = line :: later) (hp : parseCommand line = .unrecognized) :
    step s = .next { s with dbg := { s.dbg with commands := later, reply := some .view } } := by
  rcases hc with hc | hc
  · rw [step_paused hc hl, pausedCommand_unrecognized hp]
    rfl
  · rw [step_inspection hc hl, inspectionCommand_unrecognized hp]
    rfl

/-- Settles O53: the line reads as unrecognized, or is one of `step` or `end` in TerminalInspection. -/
theorem unrecognizedCommandLeavesTheStateUnchanged : Obligations.UnrecognizedCommandLeavesTheStateUnchanged := by
  intro s line later hl h
  rcases h with ⟨hc, hw⟩ | ⟨hc, hw, ha⟩ | ⟨hc, hw⟩
  · exact step_unrecognized hc hl (parseCommand_unknown_word hw)
  · exact step_unrecognized hc hl (parseCommand_end_exit_argument hw ha)
  · rw [step_inspection hc hl, inspectionCommand_of_step_end hw]
    rfl

/-- Settles O54: `m`, `i` and `exit` have their own equations, and every other command is only answered. -/
theorem terminalInspectionAcceptsOnlyViewsAndExit : Obligations.TerminalInspectionAcceptsOnlyViewsAndExit := by
  intro s line later hc hl
  refine ⟨_, step_inspection hc hl, rfl, ?_⟩
  rw [State.setDbg_dbg]
  cases hp : parseCommand line with
  | memoryView a =>
    rw [inspectionCommand_memoryView hp]
    exact ⟨rfl, nofun, fun _ => hc, rfl, rfl, fun _ _ => rfl, rfl, rfl⟩
  | instructionView a =>
    rw [inspectionCommand_instructionView hp]
    exact ⟨rfl, nofun, fun _ => hc, rfl, rfl, fun _ _ => rfl, rfl, rfl⟩
  | exit =>
    rw [inspectionCommand_exit hp]
    exact ⟨rfl, fun _ => ⟨rfl, rfl⟩, fun h => absurd rfl h, rfl, rfl, nofun, rfl, rfl⟩
  | step n | endPausing | invalidArgument | unrecognized =>
    obtain ⟨r, hr⟩ := inspectionCommand_reply { s.dbg with commands := later } (line := line) (by simp [hp])
      (by simp [hp]) (by simp [hp])
    rw [hr]
    exact ⟨rfl, nofun, fun _ => hc, rfl, rfl, nofun, rfl, rfl⟩

/-- Settles O60, by `step_terminated` and `run_terminated`. -/
theorem terminatedIsFinal : Obligations.TerminatedIsFinal := fun _ hc =>
  ⟨fun _ h => (Host.Outcome.next.inj ((step_terminated hc).symm.trans h)).symm, fun _ _ h => run_terminated hc h⟩

end Sys2Proof.Claims
end
